-- ==== Sys2Proof/Word.lean ====
section
/-! DEFINITION. The byte and the two words that cross the block's ports (spec/00_scope.md R6, R7;
spec/30_encoding.md R60). A word is a sequence of bytes, byte 0 first. -/

namespace Sys2Proof

/-- R6: "A byte is an unsigned integer 0..255, 8 bits, bit 7 the most significant". -/
abbrev Byte := BitVec 8

/-- R7, R60: a request word is a sequence of 70 bytes, numbered from 0. -/
abbrev ReqWord := Vector Byte 70

/-- R7, R60: a response word is a sequence of 10 bytes, numbered from 0. -/
abbrev RspWord := Vector Byte 10

end Sys2Proof
end

