-- ==== Sys2Proof/Config.lean ====
section
/-! DEFINITION. The implementation parameters of spec/00_scope.md R5, as named constants.
The two open parameters of that table have no constant here: the keyed hash `HMAC` is an argument of the
functions that need it (R112, D22; Machine/System.lean), and the latency is not modelled (R165, D15).
The block has no free value: spec/30_encoding.md R74 leaves no encoding's behaviour undefined. -/

namespace Sys2Proof.Config

/-- `TIME_W`: width of the time operand. -/
def timeWidth : Nat := 64

/-- `CTR_W`: width of the counter. -/
def counterWidth : Nat := 64

/-- `CTR_BYTES`: length of the counter encoding, the size of the space `MSG`. -/
def counterBytes : Nat := 8

/-- `PERIOD_W`: width of the period operand. -/
def periodWidth : Nat := 64

/-- `OTPLEN_W`: width of the digit-count operand. -/
def otpLenWidth : Nat := 32

/-- `OTPLEN_DEFAULT`: used by the textual notation only (spec/30_encoding.md R77). -/
def otpLenDefault : Nat := 6

/-- `DIG_BYTES`: size of the digest field, the size of the space `DIG`. -/
def digestBytes : Nat := 64

/-- `OFF_W`: width of the truncation offset. -/
def offsetWidth : Nat := 4

/-- `BIN_W`: width of the truncated integer. -/
def binWidth : Nat := 31

/-- `REQ_BYTES`: size of a request word. -/
def requestBytes : Nat := 70

/-- `RSP_BYTES`: size of a response word. -/
def responseBytes : Nat := 10

end Sys2Proof.Config
end

