-- ==== Sys2Proof/Syntax.lean ====
section
/-! DEFINITION. The operations of the block, one constructor per row of spec/opcode_table.json
(spec/30_encoding.md R62, R64). -/

namespace Sys2Proof

/-- The two operations, with the operands decode gives them (R62).
`tctr` is `TCTR(time, period)`; `dtrm` is `DTRM(alg, len, digest)`, whose `digest` is the whole 64-byte
`DIGEST` field, padding included (assumption 7). The selector stays a raw byte: an unrecognised one is
no illegal word but an error of the operation (R74). -/
inductive Instr where
  | tctr (time period : BitVec 64)
  | dtrm (alg : Byte) (len : BitVec 32) (digest : Vector Byte 64)
  deriving DecidableEq, Repr

end Sys2Proof
end

