-- ==== Sys2Proof/WellFormed.lean ====
section
/-! DEFINITION. Which operations can be encoded (all of them: the field widths are in the types), and which
ones carry operands that pass the checks of their own operation (spec/30_encoding.md R62;
spec/60_exceptions.md R132, R139). -/

namespace Sys2Proof

/-- R62: "No other byte can make a word illegal: the value checks on `period`, `len` and `alg` belong to the
operations". Every operand of its field's width is encodable. -/
def Instr.wellFormed : Instr → Bool
  | .tctr _ _ => true
  | .dtrm _ _ _ => true

/-- R82: the period check of `TCTR`. -/
def periodValid (period : BitVec 64) : Bool := period != 0

/-- R92, first check of `DTRM`. -/
def otpLenValid (len : BitVec 32) : Bool := len != 0

/-- R92, second check of `DTRM`: `ALG` is one of `0x00` to `0x03`. -/
def algValid (alg : Byte) : Bool := decide (alg.toNat ≤ 3)

/-- R139: the operands from which "the response status is `0x00`" follows (`PERIOD ≠ 0`, `OTPLEN ≠ 0`,
`ALG ≤ 3`). -/
def Instr.operandsValid : Instr → Bool
  | .tctr _ period => periodValid period
  | .dtrm alg len _ => otpLenValid len && algValid alg

end Sys2Proof
end

