-- ==== Sys2Proof/Decode.lean ====
section
/-! DEFINITION. Byte order, the fields of a request word, the decoder, the encoder and the opcode table
(spec/00_scope.md R7; spec/30_encoding.md R60 to R68, R79). -/

namespace Sys2Proof

/-! ### Byte sequences (R7) -/

/-- `from_be(B)`, R7: the sum over `i` of `B[i] * 256^(N-1-i)`. -/
def fromBe : List Byte → Nat
  | [] => 0
  | b :: bs => b.toNat * 256 ^ bs.length + fromBe bs

/-- `be_n(v)`, R7: byte `i` holds bits `8(n-1-i)+7` down to `8(n-1-i)` of `v`. R7 gives it for `v < 2^(8n)`; that a larger
number loses its bits above is the model's choice (DESIGN CHOICE, assumption 25). -/
def be : Nat → Nat → List Byte
  | 0, _ => []
  | n + 1, v => BitVec.ofNat 8 (v >>> (8 * n)) :: be n v

theorem be_length (n v : Nat) : (be n v).length = n := by
  induction n with
  | zero => rfl
  | succ n ih => simp [be, ih]

/-- `be_n(v)` as a sequence of known length. -/
def beVec (n v : Nat) : Vector Byte n := ⟨⟨be n v⟩, be_length n v⟩

/-- `B[i..j]`, R7: the bytes `i` to `j` inclusive. -/
def byteRange (B : List Byte) (i j : Nat) : List Byte := (B.drop i).take (j + 1 - i)

/-! ### The opcode bytes and the fields of a request word (R64 to R66) -/

/-- R64: the opcode byte of `TCTR`. -/
def opTctr : Byte := 0x01

/-- R64: the opcode byte of `DTRM`. -/
def opDtrm : Byte := 0x02

/-- R64: the opcode byte of an operation. -/
def Instr.opcode : Instr → Byte
  | .tctr _ _ => opTctr
  | .dtrm _ _ _ => opDtrm

/-- Field `OPC`: byte 0 (R65, R66). -/
def opcodeField (w : ReqWord) : Byte := w[0]

/-- Field `TIME` of `FMT-T`: bytes 1 to 8 (R65; view `T` of R25). -/
def timeField (w : ReqWord) : BitVec 64 := BitVec.ofNat 64 (fromBe (byteRange w.toList 1 8))

/-- Field `PERIOD` of `FMT-T`: bytes 9 to 16 (R65; view `P` of R25). -/
def periodField (w : ReqWord) : BitVec 64 := BitVec.ofNat 64 (fromBe (byteRange w.toList 9 16))

/-- Field `ALG` of `FMT-D`: byte 1 (R66; view `ALG` of R26). -/
def algField (w : ReqWord) : Byte := w[1]

/-- Field `OTPLEN` of `FMT-D`: bytes 2 to 5 (R66; view `N` of R26). -/
def otpLenField (w : ReqWord) : BitVec 32 := BitVec.ofNat 32 (fromBe (byteRange w.toList 2 5))

/-- Field `DIGEST` of `FMT-D`: bytes 6 to 69, byte `6+a` being `DIG[a]` (R66; space `DIG` of R26). -/
def digestField (w : ReqWord) : Vector Byte 64 := w.extract 6 70

/-! ### Decoding (R62) -/

/-- The results of decoding a request word (R62): an operation, or the word is illegal. -/
inductive Decoded where
  /-- byte 0 names an operation -/
  | instr (i : Instr)
  /-- byte 0 is the given value, which names no operation -/
  | illegal (opcode : Byte)
  deriving DecidableEq, Repr

/-- R62: "Decode is a total function from 70-byte words to one of three results, decided by byte 0 alone". -/
def decode (w : ReqWord) : Decoded :=
  if opcodeField w = opTctr then .instr (.tctr (timeField w) (periodField w))
  else if opcodeField w = opDtrm then .instr (.dtrm (algField w) (otpLenField w) (digestField w))
  else .illegal (opcodeField w)

/-- Why a byte sequence is no operation. -/
inductive DecodeError where
  /-- R60: a request word is always 70 bytes; this sequence has another length -/
  | badLength (n : Nat)
  /-- R62: the opcode byte names no operation -/
  | illegalOpcode (opcode : Byte)
  deriving DecidableEq, Repr

/-- Decoding of any byte sequence: R60 fixes the one length, R62 decides the rest. -/
def decodeBytes (B : List Byte) : Except DecodeError Instr :=
  if h : B.length = 70 then
    match decode ⟨⟨B⟩, h⟩ with
    | .instr i => .ok i
    | .illegal opc => .error (.illegalOpcode opc)
  else .error (.badLength B.length)

/-! ### Encoding (R65, R66, R79) -/

/-- R79: the inverse of decode. Every field is filled from its operand, big-endian, and the bytes a `TCTR`
word ignores are `0x00`. A `DTRM` word's padding is part of its `digest` operand. -/
def encode : Instr → ReqWord
  | .tctr time period =>
      (#v[opTctr] ++ beVec 8 time.toNat ++ beVec 8 period.toNat ++ Vector.replicate 53 (0 : Byte) :
        Vector Byte (1 + 8 + 8 + 53))
  | .dtrm alg len digest =>
      (#v[opDtrm, alg] ++ beVec 4 len.toNat ++ digest : Vector Byte (2 + 4 + 64))

/-! ### The machine-readable opcode table (R64) -/

/-- A row of spec/opcode_table.json: `match` and `mask` are 560-bit numbers, byte 0 of the word first. -/
structure OpcodeRow where
  mnemonic : String
  pattern : Nat
  mask : Nat
  deriving DecidableEq, Repr

/-- Row `TCTR`. -/
def rowTctr : OpcodeRow where
  mnemonic := "TCTR"
  pattern := 0x01000000000000000000000000000000000000000000000000000000000000000000000000000000000000000000000000000000000000000000000000000000000000000000
  mask := 0xFF000000000000000000000000000000000000000000000000000000000000000000000000000000000000000000000000000000000000000000000000000000000000000000

/-- Row `DTRM`. -/
def rowDtrm : OpcodeRow where
  mnemonic := "DTRM"
  pattern := 0x02000000000000000000000000000000000000000000000000000000000000000000000000000000000000000000000000000000000000000000000000000000000000000000
  mask := 0xFF000000000000000000000000000000000000000000000000000000000000000000000000000000000000000000000000000000000000000000000000000000000000000000

/-- The row of an operation. -/
def Instr.row : Instr → OpcodeRow
  | .tctr _ _ => rowTctr
  | .dtrm _ _ _ => rowDtrm

/-- A request word as a 560-bit number, byte 0 the most significant (R60). -/
def wordNumber (w : ReqWord) : Nat := fromBe w.toList

/-- R64: "a request word `w` (as a 560-bit number, rule R60) selects the row when `w & mask = match`". -/
def OpcodeRow.selects (r : OpcodeRow) (w : ReqWord) : Bool := wordNumber w &&& r.mask == r.pattern

/-! ### Words given as the table numbers their bits -/

/-- The request word whose bits are the number `w`: the table numbers a word as ONE 560-bit number whose byte
`k` is bits `559-8k` down to `552-8k` (R60, R64). Bits from `nbits` up are 0 (assumption 5). -/
def tableWord (nbits w : Nat) : ReqWord :=
  beVec 70 (if nbits < 560 then w % 2 ^ nbits else w)

/-- What the decoder reads from the word whose bits, numbered as the table numbers them, are `w`. -/
def decodeTableWord (nbits w : Nat) : Option Instr :=
  match decode (tableWord nbits w) with
  | .instr i => some i
  | .illegal _ => none

end Sys2Proof
end

