-- ==== Sys2Proof/Machine/State.lean ====
section
/-! DEFINITION. The state of the block, its input pins, the host's side of the two ports, the reasons a step can
stop, and the state after reset (spec/10_state.md R20 to R36; spec/70_reset_and_hazards.md R150 to R153). -/

namespace Sys2Proof.Machine

/-- Phase latch `PH` (R23): no operation in flight; a request accepted and not executed; a response ready. -/
inductive Phase where
  | idle
  | busy
  | done
  deriving DecidableEq, Repr

/-- A byte space held in the state: (address, byte) pairs, addresses strictly rising. An address that is not
listed holds no value (R29). -/
abbrev Memory := List Host.Cell

/-- The canonical form of a memory: addresses strictly rise, so no address is listed twice. An unlisted address
holds no value, so no entry can equal what an unlisted address reads as. -/
abbrev Memory.wf (m : Memory) : Prop := m.Pairwise (fun c d => c.1 < d.1)

/-- Every listed address is one of the space's, `0 .. size-1`. -/
abbrev Memory.inSpace (size : Nat) (m : Memory) : Prop := ∀ c ∈ m, c.1 < size

/-- The latches of the block (R23 to R28). `none`, and for `MSG` the empty memory, is the spec's own "holds no
value" (R29: "an option type, not zero"). The operand views `OPC`, `T`, `P`, `ALG`, `N` and the space `DIG` are
views of `RQ` and no storage of their own (R24; Machine/Operands.lean). -/
structure Block where
  /-- `PH`, the block's only control state (R23) -/
  ph  : Phase
  /-- `RQ`, the request word as accepted (R24) -/
  rq  : Option ReqWord
  /-- `Q`, the counter (R27) -/
  q   : Option (BitVec 64)
  /-- `MSG`, the counter-message space, byte addresses 0 to 7 (R27, R41) -/
  msg : Memory
  /-- `LEN`, the digest length, one of 20, 32, 48, 64 (R27) -/
  len : Option Nat
  /-- `OFF`, the truncation offset (R27) -/
  off : Option (BitVec 4)
  /-- `WIN`, the window (R27) -/
  win : Option (Vector Byte 4)
  /-- `BIN`, D00's `binary` (R27) -/
  bin : Option (BitVec 31)
  /-- `OTP`, D00's `otpNumeric` (R27) -/
  otp : Option (BitVec 31)
  /-- `RS`, the response word (R28) -/
  rs  : Option RspWord
  deriving DecidableEq, Repr

/-- The levels of the input ports (R34): `reset`, `req_valid`, `req_data`, `rsp_ready`. -/
structure Pins where
  reset    : Bool
  reqValid : Bool
  reqData  : ReqWord
  rspReady : Bool
  deriving DecidableEq, Repr

/-- What happens next at the ports (R11, R12): the host changes the levels it drives, or it leaves them as they
are and the block takes its enabled step (assumption 2). -/
inductive HostMove where
  | drive (p : Pins)
  | wait
  deriving DecidableEq, Repr

/-- The host's side of the ports: what it does next, and the observation of R12, the words accepted and the words
delivered since the last reset. None of it is read by the block (assumptions 2 and 12). -/
structure Env where
  script    : List HostMove
  accepted  : List ReqWord
  delivered : List RspWord
  deriving DecidableEq, Repr

/-- The machine's state: the block's latches, the input pins, and the host's side of the ports. -/
structure State where
  blk  : Block
  pins : Pins
  env  : Env
  deriving DecidableEq, Repr

/-- The latches that can hold no value. -/
inductive Latch where
  | rq
  | q
  | msg
  | len
  | off
  | win
  | bin
  | otp
  | rs
  deriving DecidableEq, Repr

/-- The faults of the MODEL, none of the block (R139). No state that a run reaches raises one: the invariant
`Coherent` of Safety.lean rules them out. -/
inductive Fault where
  /-- raised by a step that reads a latch that holds no value (spec/93_implementation_defined.md U9: "reading one
  would be a `fault` of the model"); safe -/
  | latchEmpty (l : Latch)
  /-- raised by `MemRead` outside `DIG[0 .. LEN-1]` (spec/20_memory.md R44: "treat a violated precondition as a fault
  of the model"); safe -/
  | digBounds (addr n : Nat)
  /-- raised by `MemWrite` outside `MSG[0..7]` (spec/20_memory.md R45 gives the precondition
  `addr + n ≤ 8`; the fault is the model's choice, DESIGN CHOICE, assumption 24); safe -/
  | msgBounds (addr n : Nat)
  deriving DecidableEq, Repr

/-- The refusals of the model. -/
inductive Refusal where
  /-- raised by `exec` for an instruction without a meaning; there is none; safe -/
  | notModelled (mnemonic : String)
  deriving DecidableEq, Repr

/-- R35, R150: the block after reset, which is also the block between operations (R32, R140): `PH = IDLE`, every
other latch holds no value. -/
def Block.reset : Block where
  ph  := .idle
  rq  := none
  q   := none
  msg := []
  len := none
  off := none
  win := none
  bin := none
  otp := none
  rs  := none

/-- A host that drives nothing: no reset, no request, not ready for a response, `req_data` all zero. -/
def Pins.quiet : Pins where
  reset    := false
  reqValid := false
  reqData  := Vector.replicate 70 0
  rspReady := false

/-- R35: the machine right after a reset. The block is as R35 says; the pins, which are the host's to drive, are
quiet, the host has no move planned and nothing has crossed the ports (assumptions 1, 2 and 12: DESIGN CHOICE). -/
def State.reset : State where
  blk  := Block.reset
  pins := Pins.quiet
  env  := ⟨[], [], []⟩

end Sys2Proof.Machine
end

