-- ==== Sys2Proof/Machine/Flags.lean ====
section
/-! DEFINITION. The block has no flags (spec/10_state.md R22). In their place stands the status byte of the
response word: its codes and the cause of an error (spec/30_encoding.md R73; spec/60_exceptions.md R131). -/

namespace Sys2Proof.Machine

/-- The causes the block raises (R131; spec/93_implementation_defined.md U11: exactly the values it produces). -/
inductive Cause where
  | invalidOtpLength
  | invalidPeriod
  | unsupportedAlgorithm
  | illegalOperation
  deriving DecidableEq, Repr

/-- The cause codes (R131). -/
def Cause.code : Cause → Byte
  | .invalidOtpLength => 0x01
  | .invalidPeriod => 0x03
  | .unsupportedAlgorithm => 0x04
  | .illegalOperation => 0x06

/-- The status of a success (R70, R131). -/
def statusOk : Byte := 0x00

/-- The cause a status byte stands for (R131), none for `0x00` and for the codes the block never produces. -/
def Cause.ofCode (c : Byte) : Option Cause :=
  if c = 0x01 then some .invalidOtpLength
  else if c = 0x03 then some .invalidPeriod
  else if c = 0x04 then some .unsupportedAlgorithm
  else if c = 0x06 then some .illegalOperation
  else none

end Sys2Proof.Machine
end

