-- ==== Sys2Proof/Machine/Operands.lean ====
section
/-! DEFINITION. The operand views of the request latch, the space `DIG` and the algorithm selector
(spec/10_state.md R24 to R26; spec/30_encoding.md R69, R75; spec/20_memory.md R40). -/

namespace Sys2Proof.Machine

/-! ### The algorithm selector (R69) -/

/-- The closed enumeration of D00 (R69, R114). -/
inductive Alg where
  | sha1
  | sha256
  | sha384
  | sha512
  deriving DecidableEq, Repr

/-- R69: the algorithm a selector byte names; `0x04` to `0xFF` are unrecognised. -/
def Alg.ofByte (a : Byte) : Option Alg :=
  if a = 0x00 then some .sha1
  else if a = 0x01 then some .sha256
  else if a = 0x02 then some .sha384
  else if a = 0x03 then some .sha512
  else none

/-- R69: the selector byte of an algorithm. -/
def Alg.code : Alg → Byte
  | .sha1 => 0x00
  | .sha256 => 0x01
  | .sha384 => 0x02
  | .sha512 => 0x03

/-- `DLEN`, R5 and R69: the digest length in bytes. -/
def Alg.dlen : Alg → Nat
  | .sha1 => 20
  | .sha256 => 32
  | .sha384 => 48
  | .sha512 => 64

/-! ### Views of `RQ` (R24 to R26) -/

/-- `OPC = RQ[0]` (R24). -/
def Block.opc (b : Block) : Option Byte := b.rq.map opcodeField

/-- A view that is valid when `RQ[0]` is the given opcode. -/
def viewWhen (opcode : Byte) (view : ReqWord → α) (b : Block) : Option α :=
  match b.rq with
  | some w => if opcodeField w = opcode then some (view w) else none
  | none => none

/-- `T`, the time in seconds since the Unix epoch (R25). -/
def Block.viewT : Block → Option (BitVec 64) := viewWhen opTctr timeField

/-- `P`, the period in seconds (R25). -/
def Block.viewP : Block → Option (BitVec 64) := viewWhen opTctr periodField

/-- `ALG`, the algorithm selector (R26). -/
def Block.viewAlg : Block → Option Byte := viewWhen opDtrm algField

/-- `N`, D00's `otpLength` (R26). -/
def Block.viewN : Block → Option (BitVec 32) := viewWhen opDtrm otpLenField

/-- `DIG`, the digest space, 64 bytes (R26, R40): `DIG[a] = RQ[6+a]`. It exists while a `DTRM` is in flight. -/
def Block.dig : Block → Option (Vector Byte 64) := viewWhen opDtrm digestField

/-- The byte at an address of `DIG`; an address above 63 does not exist (R40). -/
def digByte (dig : Vector Byte 64) (a : Nat) : Option Byte := dig[a]?

end Sys2Proof.Machine
end

