-- ==== Sys2Proof/Machine/Ops.lean ====
section
/-! DEFINITION. The operations the meanings share: reading a latch, `MemRead` and `MemWrite`, building a response,
raising a cause (taking an exception) and the return from it, Deliver (spec/00_scope.md R9; spec/20_memory.md R44,
R45; spec/30_encoding.md R70 to R72; spec/60_exceptions.md R136, R140). -/

namespace Sys2Proof.Machine

/-! ### Running an operation on the block -/

/-- The state with another block; pins and the host's side stay. -/
def State.setBlk (s : State) (b : Block) : State := { s with blk := b }

/-- The outcome of an Execute step whose effect is on the latches only (R31: "no port takes part"). -/
def runBlock (body : Block → Except Fault Block) (s : State) : Host.Outcome State Fault Refusal :=
  match body s.blk with
  | .ok b => .next (s.setBlk b)
  | .error f => .fault f

/-- `L.NAME` (R9): the value of a latch. Reading one that holds no value is a fault of the model (R29, U9). -/
def need (l : Latch) : Option α → Except Fault α
  | some v => .ok v
  | none => .error (.latchEmpty l)

/-! ### Bytes in memory -/

/-- One byte of a memory; an unlisted address holds no value. -/
def Memory.read : Memory → Nat → Option Byte
  | [], _ => none
  | (k, v) :: m, a => if k = a then some v else Memory.read m a

/-- Writing one byte, addresses kept strictly rising. -/
def Memory.write : Memory → Nat → Byte → Memory
  | [], a, v => [(a, v)]
  | (k, u) :: m, a, v =>
    if k < a then (k, u) :: Memory.write m a v
    else if k = a then (a, v) :: m
    else (a, v) :: (k, u) :: m

/-- Writing consecutive bytes, the first at the lowest address (R45). -/
def Memory.writeBytes : Memory → Nat → List Byte → Memory
  | m, _, [] => m
  | m, a, v :: vs => Memory.writeBytes (Memory.write m a v) (a + 1) vs

/-- The `n` values `f 0, ..., f (n-1)` in that order, if all of them are there. -/
def gather (f : Nat → Option Byte) : (n : Nat) → Option (Vector Byte n)
  | 0 => some #v[]
  | n + 1 =>
    match gather f n, f n with
    | some bs, some b => some (bs.push b)
    | _, _ => none

/-- `MemRead(addr, n)`, R44: the bytes `DIG[addr] .. DIG[addr+n-1]` in address order. The precondition
`addr + n ≤ LEN` is checked, and a violated one is a fault of the model. -/
def memRead (dig : Vector Byte 64) (b : Block) (addr n : Nat) : Except Fault (Vector Byte n) :=
  match need .len b.len with
  | .error f => .error f
  | .ok len =>
    if addr + n ≤ len then
      match gather (fun j => digByte dig (addr + j)) n with
      | some bs => .ok bs
      | none => .error (.digBounds addr n)
    else .error (.digBounds addr n)

/-- `MemWrite(addr, n, v)`, R45: `MSG[addr + i] <- v[i]`, all bytes together. The precondition `addr + n ≤ 8` is
checked. R45 does not say what a violated one does; that it is a fault of the model is the model's choice (DESIGN
CHOICE, assumption 24). -/
def memWrite (b : Block) (addr : Nat) (v : List Byte) : Except Fault Block :=
  if addr + v.length ≤ Config.counterBytes then
    .ok { b with msg := Memory.writeBytes b.msg addr v }
  else .error (.msgBounds addr v.length)

/-- `MSG[0..7]`, as the response builder reads it (R49). -/
def readMsg (b : Block) : Except Fault (Vector Byte 8) := need .msg (gather (Memory.read b.msg) 8)

/-! ### Responses (R70 to R72) -/

/-- Format `FMT-R` (R70): `ECHO`, `STATUS`, then the eight payload bytes. -/
def rspWord (echo status : Byte) (payload : Vector Byte 8) : RspWord :=
  (#v[echo, status] ++ payload : Vector Byte (2 + 8))

/-- The eight `0x00` bytes of an error response, "not a value of anything" (R72). -/
def noPayload : Vector Byte 8 := Vector.replicate 8 0

/-- The payload of a successful `DTRM` (R72): `be_4(zext_32(OTP))`, then four `0x00` bytes. -/
def otpPayload (otp : BitVec 31) : Vector Byte 8 :=
  (beVec 4 (otp.setWidth 32).toNat ++ Vector.replicate 4 (0 : Byte) : Vector Byte (4 + 4))

/-- The end of every Execute (R31): the response word goes to `RS` and `PH` to `DONE`. -/
def respond (w : RspWord) (b : Block) : Block := { b with rs := some w, ph := .done }

/-- `respond OK(payload)` (R9): a success response. -/
def respondOk (echo : Byte) (payload : Vector Byte 8) (b : Block) : Block :=
  respond (rspWord echo statusOk payload) b

/-- `raise <Cause>`, taking an exception (R9, R136): the error response of that cause, no result latch written,
`PH` to `DONE`. Nothing is saved and control goes nowhere. -/
def raise (echo : Byte) (c : Cause) (b : Block) : Block :=
  respond (rspWord echo c.code noPayload) b

/-! ### The return: Deliver (R32, R140) -/

/-- Deliver (R32): the host receives `RS`; then every latch but `PH` holds no value and `PH` is `IDLE`. It is the
one return, from an error as from a success (R140: "an error is not sticky"). -/
def deliver (s : State) : Host.Outcome State Fault Refusal :=
  match s.blk.rs with
  | some w =>
    .next { s with blk := Block.reset, env := { s.env with delivered := s.env.delivered ++ [w] } }
  | none => .fault (.latchEmpty .rs)

end Sys2Proof.Machine
end

