-- ==== Sys2Proof/Machine/Divider.lean ====
section
/-! DEFINITION. Unit CD, the time-to-counter divider: operation `TCTR` (spec/40_counter_divider.md R80 to R88). -/

namespace Sys2Proof.Machine

/-- `ctr(T, P) = T div P`, R83: the integer quotient, stored at 64 bits. `TCTR` never evaluates it with `P = 0` (R82), for
which R8 gives no value; that the function is 0 there is the model's choice (DESIGN CHOICE, assumption 25). -/
def ctr (t p : BitVec 64) : BitVec 64 := BitVec.ofNat 64 (t.toNat / p.toNat)

/-- `enc8(Q) = be_8(Q)`, R84. -/
def enc8 (q : BitVec 64) : Vector Byte 8 := beVec 8 q.toNat

/-- `L.Q <- ctr(T, P)` (R81, R83). -/
def divideStage (t p : BitVec 64) (b : Block) : Block := { b with q := some (ctr t p) }

/-- `MemWrite(0, 8, enc8(L.Q))` (R81, R84). -/
def serialiseStage (b : Block) : Except Fault Block := do
  let q ← need .q b.q
  memWrite b 0 (enc8 q).toList

/-- `respond OK(MSG[0..7])` (R81, R71). -/
def respondMsgStage (b : Block) : Except Fault Block := do
  let m ← readMsg b
  .ok (respondOk opTctr m b)

/-- The pseudocode of R81, on the latches. -/
def tctrBody (t p : BitVec 64) (b : Block) : Except Fault Block :=
  if p = 0 then .ok (raise opTctr .invalidPeriod b)
  else do
    let b ← serialiseStage (divideStage t p b)
    respondMsgStage b

/-- `TCTR`, time to counter (R81). -/
def execTctr (t p : BitVec 64) (s : State) : Host.Outcome State Fault Refusal :=
  runBlock (tctrBody t p) s

end Sys2Proof.Machine
end

