-- ==== Sys2Proof/Machine/Truncation.lean ====
section
/-! DEFINITION. Unit DT, dynamic truncation and modulo reduction: operation `DTRM`
(spec/41_truncation_modulo.md R90 to R102). -/

namespace Sys2Proof.Machine

/-- The low nibble of the last digest byte, R93. -/
def offsetOf (last : Byte) : BitVec 4 := (last &&& 0x0F).setWidth 4

/-- `BIN = ((WIN[0] & 0x7F) << 24) | (WIN[1] << 16) | (WIN[2] << 8) | WIN[3]`, R95. The four terms fit the 31 bits
of `BIN`, so no bit is lost. -/
def binOf (win : Vector Byte 4) : BitVec 31 :=
  ((win[0] &&& 0x7F).setWidth 31 <<< 24) ||| (win[1].setWidth 31 <<< 16) |||
    (win[2].setWidth 31 <<< 8) ||| win[3].setWidth 31

/-- `OTP = BIN mod 10^N`, R96, exact for every `N` as R98 has it: from `N = 10` on, `10^N` is above every `BIN`
and the reduction is the identity; below, the power is a natural number and never wraps (R99). `DTRM` never evaluates it
with `N = 0` (R92); that it is `BIN mod 1` there is the model's choice (DESIGN CHOICE, assumption 25). -/
def otpOf (bin : BitVec 31) (n : Nat) : BitVec 31 :=
  if 10 ≤ n then bin else BitVec.ofNat 31 (bin.toNat % 10 ^ n)

/-- `L.LEN <- DLEN(ALG)` (R91, R69). -/
def lengthStage (alg : Alg) (b : Block) : Block := { b with len := some alg.dlen }

/-- `last <- MemRead(L.LEN - 1, 1)[0]; L.OFF <- last & 0x0F` (R91, R93). -/
def offsetStage (dig : Vector Byte 64) (b : Block) : Except Fault Block := do
  let len ← need .len b.len
  let last ← memRead dig b (len - 1) 1
  .ok { b with off := some (offsetOf last[0]) }

/-- `L.WIN <- MemRead(L.OFF, 4)` (R91, R94). -/
def windowStage (dig : Vector Byte 64) (b : Block) : Except Fault Block := do
  let off ← need .off b.off
  let win ← memRead dig b off.toNat 4
  .ok { b with win := some win }

/-- The masking and big-endian assembly (R91, R95). -/
def assembleStage (b : Block) : Except Fault Block := do
  let win ← need .win b.win
  .ok { b with bin := some (binOf win) }

/-- `L.OTP <- L.BIN mod 10^N` (R91, R96). -/
def reduceStage (n : BitVec 32) (b : Block) : Except Fault Block := do
  let bin ← need .bin b.bin
  .ok { b with otp := some (otpOf bin n.toNat) }

/-- `respond OK(be_4(zext_32(L.OTP)))` (R91, R72). -/
def respondOtpStage (b : Block) : Except Fault Block := do
  let otp ← need .otp b.otp
  .ok (respondOk opDtrm (otpPayload otp) b)

/-- The stages after the checks, in pipeline order (R91). -/
def truncateBody (alg : Alg) (n : BitVec 32) (dig : Vector Byte 64) (b : Block) : Except Fault Block := do
  let b ← offsetStage dig (lengthStage alg b)
  let b ← windowStage dig b
  let b ← assembleStage b
  let b ← reduceStage n b
  respondOtpStage b

/-- The pseudocode of R91, on the latches: the two checks in the order of R92, then the stages. -/
def dtrmBody (alg : Byte) (n : BitVec 32) (dig : Vector Byte 64) (b : Block) : Except Fault Block :=
  if n = 0 then .ok (raise opDtrm .invalidOtpLength b)
  else
    match Alg.ofByte alg with
    | none => .ok (raise opDtrm .unsupportedAlgorithm b)
    | some a => truncateBody a n dig b

/-- `DTRM`, dynamic truncation and reduction modulo `10^N` (R91). -/
def execDtrm (alg : Byte) (n : BitVec 32) (dig : Vector Byte 64) (s : State) :
    Host.Outcome State Fault Refusal :=
  runBlock (dtrmBody alg n dig) s

end Sys2Proof.Machine
end

