-- ==== Sys2Proof/Machine/Dispatch.lean ====
section
/-! DEFINITION. What each operation of the opcode map does (spec/30_encoding.md R64). -/

namespace Sys2Proof.Machine

def exec (i : Instr) (s : State) : Host.Outcome State Fault Refusal :=
  match i with
  | .tctr t p => Sys2Proof.Machine.execTctr t p s
  | .dtrm alg n dig => Sys2Proof.Machine.execDtrm alg n dig s

end Sys2Proof.Machine
end

