-- ==== Sys2Proof/Machine/Handshake.lean ====
section
/-! DEFINITION. The ports and the three steps: Reset, Accept, Execute, Deliver and the host's moves
(spec/10_state.md R30 to R34; spec/60_exceptions.md R135; spec/70_reset_and_hazards.md R150, R151). -/

namespace Sys2Proof.Machine

/-! ### The output ports (R23, R34) -/

/-- `req_ready`: high exactly when `PH = IDLE` and `reset = 0`. -/
def State.reqReady (s : State) : Bool := s.blk.ph == .idle && !s.pins.reset

/-- `rsp_valid`: high exactly when `PH = DONE` and `reset = 0`. -/
def State.rspValid (s : State) : Bool := s.blk.ph == .done && !s.pins.reset

/-- `rsp_data`: `RS` while `rsp_valid = 1`; unspecified, so absent here, otherwise (R34, U5; assumption 9). -/
def State.rspData (s : State) : Option RspWord := if s.rspValid then s.blk.rs else none

/-! ### Reset (R150, R151) -/

/-- The one Reset event, enabled in every state: the latches are as after reset, the operation in flight is
abandoned, and the observation of R12 begins again. -/
def resetEvent (s : State) : State :=
  { s with blk := Block.reset, env := { s.env with accepted := [], delivered := [] } }

/-- The host sets the input pins. Raising `reset` is the Reset event (R150; trace of program P5). -/
def drive (p : Pins) (s : State) : State :=
  let s := { s with pins := p }
  if p.reset then resetEvent s else s

/-! ### Accept (R30) and Execute (R31) -/

/-- The effect of an Accept of the word `w`: `L.RQ <- w`, `L.PH <- BUSY`. Nothing is checked. -/
def acceptWord (w : ReqWord) (s : State) : State :=
  { s with
    blk := { s.blk with rq := some w, ph := .busy }
    env := { s.env with accepted := s.env.accepted ++ [w] } }

/-- Accept: `req_data` is sampled at this event and only then (R30, R34). -/
def accept (s : State) : State := acceptWord s.pins.reqData s

/-- The illegal operation (R135): nothing else of the word is read, no result latch is written, the answer is
`IllegalOperation`. -/
def execIllegal (opcode : Byte) (s : State) : Host.Outcome State Fault Refusal :=
  runBlock (fun b => .ok (raise opcode .illegalOperation b)) s

/-- Execute on the request word `w` (R31): decode, then the rule of the decoded operation. -/
def executeWord (w : ReqWord) (s : State) : Host.Outcome State Fault Refusal :=
  match decode w with
  | .instr i => exec i s
  | .illegal opcode => execIllegal opcode s

/-- Execute (R31): it reads `RQ` and nothing else. -/
def execute (s : State) : Host.Outcome State Fault Refusal :=
  match s.blk.rq with
  | some w => executeWord w s
  | none => .fault (.latchEmpty .rq)

/-! ### The block's step and whose turn it is -/

/-- The block takes its enabled step. Under `reset` none of the three is enabled and the latches stay as after
reset (R150); where no step is enabled the block waits, its state unchanged (R30, R32, R147; assumption 3). -/
def blockStep (s : State) : Host.Outcome State Fault Refusal :=
  if s.pins.reset then .next (resetEvent s)
  else
    match s.blk.ph with
    | .idle => if s.pins.reqValid then .next (accept s) else .next s
    | .busy => execute s
    | .done => if s.pins.rspReady then deliver s else .next s

/-- The next move at the ports, and the state with that move taken off the script. With nothing planned the
host leaves its pins as they are and the block moves (assumption 2). -/
def nextMove (s : State) : HostMove × State :=
  match s.env.script with
  | [] => (.wait, s)
  | m :: rest => (m, { s with env := { s.env with script := rest } })

/-- One event: the host sets its pins, or the block takes its enabled step. -/
def eventStep (s : State) : Host.Outcome State Fault Refusal :=
  match nextMove s with
  | (.drive p, s) => .next (drive p s)
  | (.wait, s) => blockStep s

/-- The state in which the word `w` has just been accepted by a block that held nothing, `reset` is low and the
host has no move planned: the step after it is Execute on `w` (assumption 6). -/
def loadRequest (w : ReqWord) (s : State) : State :=
  acceptWord w
    { blk := Block.reset
      pins := { s.pins with reset := false }
      env := { s.env with script := [] } }

end Sys2Proof.Machine
end

