-- ==== Sys2Proof/Machine/Step.lean ====
section
/-! DEFINITION. One step of the machine: one event at the block or at its ports (spec/10_state.md R30 to R32;
spec/70_reset_and_hazards.md R165: "a model has events, not cycles"). -/

namespace Sys2Proof.Machine

/-- One event. -/
def step (s : State) : Host.Outcome State Fault Refusal := eventStep s

/-- `s` with the word whose bits, numbered as the opcode table numbers them, are `w`, accepted and waiting for
Execute: the block has no program counter and fetches nothing (R21), so this stands for the Accept of the word. -/
def State.withFetchWord (s : State) (nbits w : Nat) : State := loadRequest (tableWord nbits w) s

end Sys2Proof.Machine
end

