-- ==== Sys2Proof/Machine/Response.lean ====
section
/-! DEFINITION. The response as a function of the request word alone: `Resp` of spec/00_scope.md R12, built from
the total functions of the two units, with no latch in sight (spec/30_encoding.md R70 to R72, R74). The Execute step
is proved to compute it; it is the clear form the claims are stated with. -/

namespace Sys2Proof.Machine

theorem Alg.dlen_bounds (a : Alg) : 20 ≤ a.dlen ∧ a.dlen ≤ 64 := by cases a <;> decide

/-- The last byte of the digest of the selected algorithm, at address `DLEN(ALG)-1` (R93). -/
def lastByte (a : Alg) (dig : Vector Byte 64) : Byte :=
  dig[a.dlen - 1]'(by have := a.dlen_bounds; omega)

/-- The window `WIN[j] = DIG[OFF + j]` (R94). -/
def windowOf (dig : Vector Byte 64) (off : BitVec 4) : Vector Byte 4 :=
  #v[dig[off.toNat]'(by omega), dig[off.toNat + 1]'(by omega), dig[off.toNat + 2]'(by omega),
    dig[off.toNat + 3]'(by omega)]

/-- `OFF` of a digest (R93). -/
def digestOffset (a : Alg) (dig : Vector Byte 64) : BitVec 4 := offsetOf (lastByte a dig)

/-- `WIN` of a digest (R93, R94). -/
def digestWindow (a : Alg) (dig : Vector Byte 64) : Vector Byte 4 := windowOf dig (digestOffset a dig)

/-- `BIN` of a digest (R93 to R95). -/
def digestBin (a : Alg) (dig : Vector Byte 64) : BitVec 31 := binOf (digestWindow a dig)

/-- `OTP` of a digest, the function `otp` of R111 (R93 to R96), which the spec gives for `N ≥ 1` (assumption 25). -/
def digestOtp (a : Alg) (n : Nat) (dig : Vector Byte 64) : BitVec 31 := otpOf (digestBin a dig) n

/-- R72: "An abstract model should make the response a sum". -/
inductive Response where
  | okTctr (msg : Vector Byte 8)
  | okDtrm (otp : BitVec 31)
  | err (c : Cause)
  deriving DecidableEq, Repr

/-- The answer to an operation (R81, R91). -/
def answerInstr : Instr → Response
  | .tctr t p => if p = 0 then .err .invalidPeriod else .okTctr (enc8 (ctr t p))
  | .dtrm alg n dig =>
    if n = 0 then .err .invalidOtpLength
    else
      match Alg.ofByte alg with
      | none => .err .unsupportedAlgorithm
      | some a => .okDtrm (digestOtp a n.toNat dig)

/-- The answer to a request word (R12, R135). -/
def answer (w : ReqWord) : Response :=
  match decode w with
  | .instr i => answerInstr i
  | .illegal _ => .err .illegalOperation

/-- The layout of a response word (R70 to R72), the echo byte beside the response. -/
def encodeResponse (echo : Byte) : Response → RspWord
  | .okTctr m => rspWord echo statusOk m
  | .okDtrm otp => rspWord echo statusOk (otpPayload otp)
  | .err c => rspWord echo c.code noPayload

/-- `Resp(w)` (R12): the response word for a request word. -/
def resp (w : ReqWord) : RspWord := encodeResponse (opcodeField w) (answer w)

/-- The payload bytes `RS[2..9]` (R70). -/
def payloadField (r : RspWord) : Vector Byte 8 := r.extract 2 10

/-- What a host reads from a response word: the status decides, and a success is told by the echo byte (R70, R71,
R72, D23). On a word the block never produces (U11) the spec gives no reading: an unknown status or echo is none, and
no other byte is checked, which is the model's choice (DESIGN CHOICE, assumption 25). -/
def readResponse (r : RspWord) : Option Response :=
  if r[1] = statusOk then
    if r[0] = opTctr then some (.okTctr (payloadField r))
    else if r[0] = opDtrm then
      some (.okDtrm (BitVec.ofNat 31 (fromBe (byteRange r.toList 2 5))))
    else none
  else (Cause.ofCode r[1]).map .err

/-! ### The block after each step of an operation, as a function of the word -/

/-- The cells of `MSG` that hold `be_8(Q)`: address 0 holds `Q[63:56]`, address 7 holds `Q[7:0]` (R41, R49). -/
def msgCells (q : BitVec 64) : Memory := (List.range 8).zip (enc8 q).toList

/-- The block after the Execute of a decoded operation that was accepted as the word `w` by a block that held
nothing: the response always, the result latches only when the operation succeeds (R27, R31). -/
def executedInstr (w : ReqWord) (i : Instr) : Block :=
  let b := { Block.reset with ph := .done, rq := some w, rs := some (resp w) }
  match i with
  | .tctr t p => if p = 0 then b else { b with q := some (ctr t p), msg := msgCells (ctr t p) }
  | .dtrm alg n dig =>
    if n = 0 then b
    else
      match Alg.ofByte alg with
      | none => b
      | some a =>
        { b with
          len := some a.dlen
          off := some (digestOffset a dig)
          win := some (digestWindow a dig)
          bin := some (digestBin a dig)
          otp := some (digestOtp a n.toNat dig) }

/-- The block after the Execute of the request word `w` (R31); an illegal word writes `RS` and `PH` only (R135). -/
def executed (w : ReqWord) : Block :=
  match decode w with
  | .instr i => executedInstr w i
  | .illegal _ => { Block.reset with ph := .done, rq := some w, rs := some (resp w) }

/-- The block after the Accept of the word `w` (R30): `RQ` and `PH` are written, nothing else holds a value. -/
def acceptedBlock (w : ReqWord) : Block := { Block.reset with ph := .busy, rq := some w }

end Sys2Proof.Machine
end

