-- ==== Sys2Proof/Machine/Assembler.lean ====
section
/-! DEFINITION. The textual form of requests and responses, its pseudo-operations and its expansion into request
words (spec/30_encoding.md R77 to R79). -/

namespace Sys2Proof.Machine

/-! ### Request lines as data -/

/-- The `alg=` operand: one of the four names, or `#k` for a raw selector byte (R77). -/
inductive AlgOperand where
  | name (a : Alg)
  | raw (k : Nat)
  deriving DecidableEq, Repr

/-- A request line (R77, R78). A `DTRM` line may leave its length out. -/
inductive Line where
  | tctr (time period : Nat)
  | dtrm (alg : AlgOperand) (len : Option Nat) (digest : List Byte)
  | enc8 (counter : Nat)
  | word (bytes : List Byte)
  deriving DecidableEq, Repr

/-- The selector byte of an `alg=` operand (R77, R69). -/
def AlgOperand.code : AlgOperand → Byte
  | .name a => a.code
  | .raw k => BitVec.ofNat 8 k

/-- R77: `k` is in 0..255. -/
def AlgOperand.wellFormed : AlgOperand → Bool
  | .name _ => true
  | .raw k => decide (k < 256)

/-- R77: the fewest digest bytes a line may give: `DLEN` for a name, none for a raw selector. -/
def AlgOperand.minDigest : AlgOperand → Nat
  | .name a => a.dlen
  | .raw _ => 0

/-- The limits R77 sets on a line's operands. -/
def Line.wellFormed : Line → Bool
  | .tctr time period => decide (time < 2 ^ 64) && decide (period < 2 ^ 64)
  | .dtrm alg len digest =>
    alg.wellFormed && decide (len.getD Config.otpLenDefault < 2 ^ 32) &&
      decide (alg.minDigest ≤ digest.length) && decide (digest.length ≤ Config.digestBytes)
  | .enc8 counter => decide (counter < 2 ^ 64)
  | .word bytes => decide (bytes.length = Config.requestBytes)

/-- R77: "the notation fills the rest of the field up to 64 bytes with `0x00`". R77 admits no longer digest; that the
function keeps the first 64 bytes of one is the model's choice (DESIGN CHOICE, assumption 25). -/
def padDigest (digest : List Byte) : Vector Byte 64 :=
  ⟨⟨(digest ++ List.replicate 64 0).take 64⟩, by simp⟩

/-- The word of a line, none where the line breaks a limit of R77. The pseudo-operations expand first: `ENC8
counter=c` is `TCTR time=c, period=1`, and a length left out is 6 (R78). -/
def Line.assemble (l : Line) : Option ReqWord :=
  if l.wellFormed then
    match l with
    | .tctr time period => some (encode (.tctr (BitVec.ofNat 64 time) (BitVec.ofNat 64 period)))
    | .dtrm alg len digest =>
      some (encode (.dtrm alg.code (BitVec.ofNat 32 (len.getD Config.otpLenDefault)) (padDigest digest)))
    | .enc8 counter => some (encode (.tctr (BitVec.ofNat 64 counter) 1))
    | .word bytes => if h : bytes.length = 70 then some ⟨⟨bytes⟩, h⟩ else none
  else none

/-! ### Reading a line's characters -/

/-- The value of a hexadecimal digit. -/
def hexDigit (c : Char) : Option Nat :=
  if '0' ≤ c ∧ c ≤ '9' then some (c.toNat - '0'.toNat)
  else if 'a' ≤ c ∧ c ≤ 'f' then some (c.toNat - 'a'.toNat + 10)
  else if 'A' ≤ c ∧ c ≤ 'F' then some (c.toNat - 'A'.toNat + 10)
  else none

/-- The digits of a numeral in a base of at most 16, read onto an accumulator. -/
def readDigits (base : Nat) : Nat → List Char → Option Nat
  | acc, [] => some acc
  | acc, c :: cs =>
    match hexDigit c with
    | some d => if d < base then readDigits base (acc * base + d) cs else none
    | none => none

/-- An unsigned integer, decimal or `0x` hexadecimal, as R77 says of `<t>` and `<p>` (and R78 of `<c>` by its expansion).
R77 gives `<n>` of `len=` no base; reading it in either is the model's choice (DESIGN CHOICE, assumption 19). -/
def readNat : List Char → Option Nat
  | [] => none
  | ['0', 'x'] => none
  | '0' :: 'x' :: cs => readDigits 16 0 cs
  | cs => readDigits 10 0 cs

/-- A string of hexadecimal digit pairs, first byte first (R77). -/
def readHexBytes : List Char → Option (List Byte)
  | [] => some []
  | [_] => none
  | hi :: lo :: cs =>
    match hexDigit hi, hexDigit lo, readHexBytes cs with
    | some h, some l, some bs => some (BitVec.ofNat 8 (h * 16 + l) :: bs)
    | _, _, _ => none

/-- An `alg=` operand (R77). R77 gives `k` in `#<k>` no base; reading it in decimal only is the model's choice
(DESIGN CHOICE, assumption 19). -/
def readAlg (cs : List Char) : Option AlgOperand :=
  if cs = "SHA1".toList then some (.name .sha1)
  else if cs = "SHA256".toList then some (.name .sha256)
  else if cs = "SHA384".toList then some (.name .sha384)
  else if cs = "SHA512".toList then some (.name .sha512)
  else
    match cs with
    | '#' :: ds => (readDigits 10 0 ds).bind (fun k => if ds = [] then none else some (.raw k))
    | _ => none

/-- The pieces between commas. -/
def splitComma : List Char → List (List Char)
  | [] => [[]]
  | c :: cs =>
    match splitComma cs with
    | [] => [[c]]
    | p :: ps => if c = ',' then [] :: p :: ps else (c :: p) :: ps

/-- The text before the first `sep` and the text after it. -/
def cutAt (sep : Char) : List Char → List Char × List Char
  | [] => ([], [])
  | c :: cs => if c = sep then ([], cs) else (c :: (cutAt sep cs).1, (cutAt sep cs).2)

/-- One operand as key and value. R77 prints every operand with its `=`; that a piece without one is no operand is the
model's choice (DESIGN CHOICE, assumption 19). -/
def readOperand (cs : List Char) : Option (List Char × List Char) :=
  if '=' ∈ cs then some (cutAt '=' cs) else none

/-- The text without one leading blank. -/
def dropBlank : List Char → List Char
  | ' ' :: cs => cs
  | cs => cs

/-- Every piece as an operand, none if one of them is not. -/
def readPieces : List (List Char) → Option (List (List Char × List Char))
  | [] => some []
  | p :: ps =>
    match readOperand p, readPieces ps with
    | some o, some os => some (o :: os)
    | _, _ => none

/-- The operands of a line, from the text after the mnemonic and its one blank. R77 prints one blank after a comma and
no other; that none at all is read as well, and any further blank is not, is the model's choice (DESIGN CHOICE,
assumption 19). -/
def readOperands (cs : List Char) : Option (List (List Char × List Char)) :=
  match splitComma cs with
  | [] => none
  | p :: ps => readPieces (p :: ps.map dropBlank)

/-- A request line from its characters (R77, R78). A line outside the layout R77 prints is read as no request, which is
the model's choice (DESIGN CHOICE, assumption 19). -/
def readLine (cs : List Char) : Option Line :=
  let mnemonic := (cutAt ' ' cs).1
  let rest := (cutAt ' ' cs).2
  if mnemonic = ".word".toList then (readHexBytes rest).map .word
  else
    match readOperands rest with
    | some [(k1, v1)] =>
      if mnemonic = "ENC8".toList ∧ k1 = "counter".toList then (readNat v1).map .enc8 else none
    | some [(k1, v1), (k2, v2)] =>
      if mnemonic = "TCTR".toList ∧ k1 = "time".toList ∧ k2 = "period".toList then
        match readNat v1, readNat v2 with
        | some t, some p => some (.tctr t p)
        | _, _ => none
      else if mnemonic = "DTRM".toList ∧ k1 = "alg".toList ∧ k2 = "digest".toList then
        match readAlg v1, readHexBytes v2 with
        | some a, some d => some (.dtrm a none d)
        | _, _ => none
      else none
    | some [(k1, v1), (k2, v2), (k3, v3)] =>
      if mnemonic = "DTRM".toList ∧ k1 = "alg".toList ∧ k2 = "len".toList ∧ k3 = "digest".toList then
        match readAlg v1, readNat v2, readHexBytes v3 with
        | some a, some n, some d => some (.dtrm a (some n) d)
        | _, _, _ => none
      else none
    | _ => none

/-- The request word a line of text stands for. -/
def assembleText (cs : List Char) : Option ReqWord := (readLine cs).bind Line.assemble

/-! ### Writing a response -/

/-- The character of a hexadecimal digit. -/
def hexChar (d : Nat) : Char := if d < 10 then Char.ofNat ('0'.toNat + d) else Char.ofNat ('A'.toNat + d - 10)

/-- Two hexadecimal digits a byte, in upper case: R77 says nothing of the case (DESIGN CHOICE, assumption 23). -/
def showHex : List Byte → List Char
  | [] => []
  | b :: bs => hexChar (b.toNat / 16) :: hexChar (b.toNat % 16) :: showHex bs

/-- The cause names of R131. -/
def Cause.name : Cause → List Char
  | .invalidOtpLength => "InvalidOtpLength".toList
  | .invalidPeriod => "InvalidPeriod".toList
  | .unsupportedAlgorithm => "UnsupportedAlgorithm".toList
  | .illegalOperation => "IllegalOperation".toList

/-- R77: a response is written `-> OK <hex>`, the payload bytes that carry the result, or `-> ERR <CauseName>`. R77 has
the decimal value follow often; the model never writes it, and writes the digits in upper case (DESIGN CHOICE,
assumption 23). -/
def showResponse : Response → List Char
  | .okTctr m => "-> OK ".toList ++ showHex m.toList
  | .okDtrm otp => "-> OK ".toList ++ showHex (be 4 otp.toNat)
  | .err c => "-> ERR ".toList ++ c.name

end Sys2Proof.Machine
end

