-- ==== Sys2Proof/Safety.lean ====
section
/-! DEFINITION. What a coherent state and a faithful observation are, in the terms the claims use
(spec/00_scope.md R12; spec/10_state.md R29, R33; spec/95_test_vectors.md section 6). -/

namespace Sys2Proof.Machine

/-- The states of the block that a run can reach (R29, R33): in `IDLE` no latch but `PH` holds a value, in `BUSY`
only `RQ` does, in `DONE` the latches hold what the Execute of `RQ` wrote. -/
def Block.Coherent (b : Block) : Prop :=
  match b.ph with
  | .idle => b = Block.reset
  | .busy => ∃ w, b = acceptedBlock w
  | .done => ∃ w, b = executed w

/-- The block is coherent, and it is as after reset while `reset = 1` (R150). -/
def State.Coherent (s : State) : Prop :=
  s.blk.Coherent ∧ (s.pins.reset = true → s.blk = Block.reset)

/-- R12: the words delivered since the last reset are the responses of the words accepted since then, in that
order; the operation in flight, if there is one, is the last word accepted and is still to be answered. -/
def State.Faithful (s : State) : Prop :=
  match s.blk.ph with
  | .idle => s.env.delivered = s.env.accepted.map resp
  | _ => ∃ ws w, s.blk.rq = some w ∧ s.env.accepted = ws ++ [w] ∧ s.env.delivered = ws.map resp

/-- A step that goes on (`next`), as a state. -/
def Outcome.state? : Host.Outcome State Fault Refusal → Option State
  | .next s => some s
  | _ => none

/-- The response latch after the Execute of the word `w`, whatever the machine did before. -/
def State.responseTo (s : State) (w : ReqWord) : Option RspWord :=
  (Outcome.state? (step (loadRequest w s))).bind (fun t => t.blk.rs)

/-- `n` steps, none if one of them does not answer a next state. -/
def stepN : Nat → State → Option State
  | 0, s => some s
  | n + 1, s => (Outcome.state? (step s)).bind (stepN n)

/-- The host keeps `reset` low throughout its script. -/
def noReset (script : List HostMove) : Prop := ∀ p, HostMove.drive p ∈ script → p.reset = false

end Sys2Proof.Machine
end

