-- ==== Sys2Proof/Machine/System.lean ====
section
/-! DEFINITION. The surrounding system: the host's use of the two ports for one operation, the flow through the
block for one TOTP with the keyed hash as an argument, and the host's formatting and validation
(spec/50_system_composition.md R110 to R120). Nothing here is inside the block. -/

namespace Sys2Proof.Machine

/-! ### One operation at the ports (R160) -/

/-- The pins of a host that presents the word `w`. -/
def Pins.presenting (w : ReqWord) : Pins := { Pins.quiet with reqValid := true, reqData := w }

/-- The pins of a host that takes the response and presents nothing. -/
def Pins.taking : Pins := { Pins.quiet with rspReady := true }

/-- One operation, as the host runs it (R160): present the word until the Accept, then take the response. -/
def session (w : ReqWord) : List HostMove :=
  [.drive (.presenting w), .wait, .drive .taking, .wait, .wait, .drive .quiet]

/-- The state with more moves put before the host's script. -/
def State.plan (s : State) (moves : List HostMove) : State :=
  { s with env := { s.env with script := moves ++ s.env.script } }

/-- One operation through the machine: the response word delivered last, and the state after it. -/
def transact (w : ReqWord) (s : State) : Option (RspWord × State) :=
  (stepN 6 (s.plan (session w))).bind (fun t => t.env.delivered.getLast?.map (fun r => (r, t)))

/-! ### The collaborators outside the block -/

/-- The typed errors of the whole system (R118, R131, R133): the causes the block raises, and those only host
software and the keyed-hash unit raise. -/
inductive HostError where
  | block (c : Cause)
  | invalidSecret
  | invalidKey
  deriving DecidableEq, Repr

/-- The one code space of R131; `0x02` and `0x05` are set aside for the host (R133). -/
def HostError.code : HostError → Byte
  | .block c => c.code
  | .invalidSecret => 0x02
  | .invalidKey => 0x05

/-- The keyed-hash unit (R112): algorithm, key bytes and the 8 message bytes give a digest of `DLEN` bytes, or one
of its own errors (U2). It is always an argument. -/
abbrev Hmac := (a : Alg) → List Byte → Vector Byte 8 → Except HostError (Vector Byte a.dlen)

/-- The Base32 decoder (R113, U1): key bytes, or none for a malformed string. It is always an argument. -/
abbrev SecretDecoder := List Char → Option (List Byte)

/-- A digest in the `DIGEST` field, first byte first, the rest padding (R68). -/
def digestOperand (a : Alg) (d : Vector Byte a.dlen) : Vector Byte 64 := padDigest d.toList

/-! ### The flow of one TOTP (R111) -/

/-- `totpNumeric(HMAC, key, alg, T, P, N) = otp(alg, N, HMAC(alg, key, enc8(ctr(T, P))))`, R111, which gives it for
`P ≥ 1` and `N ≥ 1` only. Here it is total and tests neither: with `P = 0` it hashes counter 0 and with `N = 0` it answers
0, which is the model's choice (DESIGN CHOICE, assumption 25). -/
def totpNumeric (hmac : Hmac) (key : List Byte) (a : Alg) (t p : BitVec 64) (n : Nat) :
    Except HostError (BitVec 31) :=
  match hmac a key (enc8 (ctr t p)) with
  | .ok d => .ok (digestOtp a n (digestOperand a d))
  | .error e => .error e

/-- Steps 2 and 3 of R111: hash the 8 counter bytes, present `DTRM`, take the response. -/
def hashAndTruncate (hmac : Hmac) (key : List Byte) (a : Alg) (n : BitVec 32) (m : Vector Byte 8) (s : State) :
    Option (Except HostError (BitVec 31) × State) :=
  match hmac a key m with
  | .error e => some (.error e, s)
  | .ok d =>
    match transact (encode (.dtrm a.code n (digestOperand a d))) s with
    | none => none
    | some (r, t) =>
      match readResponse r with
      | some (.okDtrm otp) => some (.ok otp, t)
      | some (.err c) => some (.error (.block c), t)
      | _ => none

/-- The flow of R111 run on the machine: step 1 presents `TCTR`, then `hashAndTruncate`. None where the machine
does not answer as R70 says. -/
def totpOnBlock (hmac : Hmac) (key : List Byte) (a : Alg) (t p : BitVec 64) (n : BitVec 32) (s : State) :
    Option (Except HostError (BitVec 31) × State) :=
  match transact (encode (.tctr t p)) s with
  | none => none
  | some (r, s) =>
    match readResponse r with
    | some (.okTctr m) => hashAndTruncate hmac key a n m s
    | some (.err c) => some (.error (.block c), s)
    | _ => none

/-- The flow of R120: HOTP from a plain counter, `ENC8 counter=c` in place of step 1 (R78). -/
def hotpOnBlock (hmac : Hmac) (key : List Byte) (a : Alg) (c : BitVec 64) (n : BitVec 32) (s : State) :
    Option (Except HostError (BitVec 31) × State) :=
  totpOnBlock hmac key a c 1 n s

/-! ### Formatting and orchestration (R116, R117) -/

/-- R116: "decimal string representation left-padded with '0' to exactly `otpLength` characters". R116 gives it for a
number below `10^otpLength` and a length of at least 1. Outside that it answers the unpadded digits, more than `otpLength`
of them, which is the model's choice (DESIGN CHOICE, assumption 25). -/
def formatOtp (otp len : Nat) : List Char :=
  List.replicate (len - (Nat.toDigits 10 otp).length) '0' ++ Nat.toDigits 10 otp

/-- R117: the entry point. It validates first, before any cryptographic work, in the order R117 lists the three
checks (assumption 17); then counter, secret, HOTP, formatting. The length left out is 6. -/
def generateTotp (decodeSecret : SecretDecoder) (hmac : Hmac) (secret : List Char) (a : Alg) (period : Int)
    (now : BitVec 64) (otpLength : Int := 6) : Except HostError (List Char) :=
  if otpLength < 1 then .error (.block .invalidOtpLength)
  else if secret = [] then .error .invalidSecret
  else if period < 1 then .error (.block .invalidPeriod)
  else
    match decodeSecret secret with
    | none => .error .invalidSecret
    | some key =>
      match hmac a key (enc8 (BitVec.ofNat 64 (now.toNat / period.toNat))) with
      | .error e => .error e
      | .ok d =>
        .ok (formatOtp (digestOtp a otpLength.toNat (digestOperand a d)).toNat otpLength.toNat)

end Sys2Proof.Machine
end

