-- ==== Sys2Proof/Certificates/Slice0/Obligations.lean ====
section
/-! DEFINITION. The statements for the provers: what the operations and the machine do, from the numbered rules of
spec/. A docstring names the rule or section a statement formalises. -/

open Sys2Proof Sys2Proof.Machine

/-! ### Words, decoding, encoding (spec/30_encoding.md) -/

/-- R62: decode is decided by byte 0 alone, and gives the fields as `from_be` of their bytes. -/
def Obligations.DecodeReadsTheFields : Prop :=
  ∀ w : ReqWord,
    (w[0] = 0x01 → ∃ t p, decode w = .instr (.tctr t p) ∧
      t.toNat = fromBe (byteRange w.toList 1 8) ∧ p.toNat = fromBe (byteRange w.toList 9 16)) ∧
    (w[0] = 0x02 → ∃ n d, decode w = .instr (.dtrm w[1] n d) ∧
      n.toNat = fromBe (byteRange w.toList 2 5) ∧ ∀ a (h : a < 64), d[a] = w[6 + a]) ∧
    (w[0] ≠ 0x01 → w[0] ≠ 0x02 → decode w = .illegal w[0])

/-- Section 6 (R79): decode after encode gives back the operands, every operand at every value. -/
def Obligations.DecodeAfterEncode : Prop :=
  ∀ i : Instr, i.wellFormed = true → decode (encode i) = .instr i

/-- Section 6 (R79): encode after decode gives back the word up to the bytes decode drops, bytes 17 to 69 of a `TCTR`
word, which it fills with zero. Decode drops no byte of a `DTRM` word (assumption 7). -/
def Obligations.EncodeAfterDecode : Prop :=
  ∀ w : ReqWord,
    (∀ t p, decode w = .instr (.tctr t p) →
      ∀ k (h : k < 70), (encode (.tctr t p))[k] = if k ≤ 16 then w[k] else 0) ∧
    (∀ a n d, decode w = .instr (.dtrm a n d) → encode (.dtrm a n d) = w)

/-- R64: a word selects a row of the opcode table exactly when it decodes to the row's operation, and a word that
selects no row is illegal. -/
def Obligations.OpcodeTableSelectsTheOperation : Prop :=
  ∀ w : ReqWord,
    (rowTctr.selects w = true ↔ ∃ t p, decode w = .instr (.tctr t p)) ∧
    (rowDtrm.selects w = true ↔ ∃ a n d, decode w = .instr (.dtrm a n d)) ∧
    ((rowTctr.selects w = false ∧ rowDtrm.selects w = false) ↔ decode w = .illegal w[0])

/-- Words written out by the spec (spec/95_test_vectors.md, vectors T1, T8, H0 and F10), numbered as the opcode table
numbers their bits, decode to the operations they stand for, and an illegal word to none. -/
def Obligations.SampleWordsDecode : Prop :=
  decodeTableWord 560 0x01000000000000003B000000000000001E0000000000000000000000000000000000000000000000000000000000000000000000000000000000000000000000000000000000 = some (.tctr 59 30) ∧
  decodeTableWord 560 0x010123456789ABCDEF00000000000000010000000000000000000000000000000000000000000000000000000000000000000000000000000000000000000000000000000000 = some (.tctr 0x0123456789ABCDEF 1) ∧
  decodeTableWord 560 0x020000000006CC93CF18508D94934C64B65D8BA7667FB7CDE4B00000000000000000000000000000000000000000000000000000000000000000000000000000000000000000 =
    some (.dtrm 0x00 6 (beVec 64 (0xCC93CF18508D94934C64B65D8BA7667FB7CDE4B0 * 256 ^ 44))) ∧
  decodeTableWord 560 0x7E0000000006CC93CF18508D94934C64B65D8BA7667FB7CDE4B00000000000000000000000000000000000000000000000000000000000000000000000000000000000000000 = none

/-- R7 (marked derived there): `from_be` and `be_N` undo each other; byte `i` of `be_N(v)` is the slice R7 gives. For a
number that does not fit, the slices are the model's choice (assumption 25). -/
def Obligations.BigEndianRoundTrip : Prop :=
  (∀ n v : Nat, v < 256 ^ n → fromBe (be n v) = v) ∧
  (∀ B : List Byte, be B.length (fromBe B) = B) ∧
  (∀ n v i : Nat, i < n → (be n v)[i]? = some (BitVec.ofNat 8 (v / 2 ^ (8 * (n - 1 - i)))))

/-! ### Unit CD, operation `TCTR` (spec/40_counter_divider.md) -/

/-- R83, R71, for every `P ≥ 1`: `TCTR` completes; `Q` is the unique integer with `Q*P ≤ T < (Q+1)*P`; the response is
`0x01 0x00` and the eight bytes of `MSG`, which are `be_8(Q)`, byte 0 being bits 63 to 56. -/
def Obligations.TctrCountsPeriods : Prop :=
  ∀ (t p : BitVec 64) (s : State), p ≠ 0 →
    ∃ u q r, exec (.tctr t p) s = .next u ∧ u.blk.q = some q ∧ u.blk.rs = some r ∧ u.blk.ph = .done ∧
      q.toNat * p.toNat ≤ t.toNat ∧ t.toNat < (q.toNat + 1) * p.toNat ∧
      r[0] = 0x01 ∧ r[1] = 0x00 ∧
      ∀ a (h : a < 8), Memory.read u.blk.msg a = some (q.extractLsb' (56 - 8 * a) 8) ∧
        Memory.read u.blk.msg a = some r[2 + a]

/-- R82: `P = 0` raises `InvalidPeriod`. The whole next state: `RS` and `PH` are written and nothing else is (R136). -/
def Obligations.TctrRejectsPeriodZero : Prop :=
  ∀ (t : BitVec 64) (s : State),
    exec (.tctr t 0) s =
      .next { s with blk := { s.blk with ph := .done, rs := some #v[0x01, 0x03, 0, 0, 0, 0, 0, 0, 0, 0] } }

/-- The frame of `TCTR`: whatever its operands, only `Q`, `MSG[0..7]`, `RS` and `PH` can change, and on an error `Q` and
`MSG` do not (R27, R48). `TCTR` stores at addresses 0 to 7 of `MSG`. -/
def Obligations.TctrFrame : Prop :=
  ∀ (t p : BitVec 64) (s u : State), exec (.tctr t p) s = .next u →
    u.blk.rq = s.blk.rq ∧ u.blk.len = s.blk.len ∧ u.blk.off = s.blk.off ∧ u.blk.win = s.blk.win ∧
    u.blk.bin = s.blk.bin ∧ u.blk.otp = s.blk.otp ∧ u.pins = s.pins ∧ u.env = s.env ∧
    (∀ a, 8 ≤ a → Memory.read u.blk.msg a = Memory.read s.blk.msg a) ∧
    (p = 0 → u.blk.q = s.blk.q ∧ u.blk.msg = s.blk.msg)

/-- R85: the contract of `ctr`: monotonic in the time, constant within a window and only there, one more at the next
window's first second. -/
def Obligations.CounterContract : Prop :=
  (∀ t₁ t₂ p : BitVec 64, p ≠ 0 → t₁ ≤ t₂ → ctr t₁ p ≤ ctr t₂ p) ∧
  (∀ (t p : BitVec 64) (k : Nat), p ≠ 0 →
    ((ctr t p).toNat = k ↔ k * p.toNat ≤ t.toNat ∧ t.toNat < (k + 1) * p.toNat)) ∧
  (∀ (t p : BitVec 64) (k : Nat), p ≠ 0 → t.toNat + 1 = (k + 1) * p.toNat → (k + 1) * p.toNat < 2 ^ 64 →
    (ctr (t + 1) p).toNat = (ctr t p).toNat + 1)

/-- Section 4 (R86, marked derived there): the quotient always fits, and the corner values. -/
def Obligations.CounterRange : Prop :=
  ∀ t p : BitVec 64, p ≠ 0 →
    (ctr t p).toNat = t.toNat / p.toNat ∧ ctr t p ≤ t ∧ ctr t 1 = t ∧ (ctr t p = 0 ↔ t < p) ∧
    (ctr t p = 1 ↔ p.toNat ≤ t.toNat ∧ t.toNat < 2 * p.toNat)

/-- Section 3 (R84): the serialisation loses nothing, and equals the mask-and-shift form. -/
def Obligations.CounterBytesLoseNothing : Prop :=
  ∀ q : BitVec 64, fromBe (enc8 q).toList = q.toNat ∧
    ∀ i (h : i < 8), (enc8 q)[i] = q.extractLsb' (56 - 8 * i) 8 ∧
      (enc8 q)[i] = ((q >>> (8 * (7 - i))) &&& 0xFF).setWidth 8

/-! ### Unit DT, operation `DTRM` (spec/41_truncation_modulo.md) -/

/-- R93, R94, R96, R97's storage: for `N ≥ 1` and a recognised `ALG`, `DTRM` completes. `LEN` is the selector's digest
length; `OFF` the low nibble of the byte at `LEN-1`; `WIN` the four bytes from `OFF`; `BIN` the big-endian window with
bit 31 cleared; `OTP` is `BIN mod 10^N`; the response carries `OTP` in bytes 2 to 5. -/
def Obligations.DtrmTruncatesAndReduces : Prop :=
  ∀ (alg : Byte) (n : BitVec 32) (dig : Vector Byte 64) (s : State), n ≠ 0 → alg.toNat ≤ 3 →
    ∃ u len last off win bin otp r, exec (.dtrm alg n dig) s = .next u ∧
      u.blk.len = some len ∧ u.blk.off = some off ∧ u.blk.win = some win ∧ u.blk.bin = some bin ∧
      u.blk.otp = some otp ∧ u.blk.rs = some r ∧ u.blk.ph = .done ∧
      [20, 32, 48, 64][alg.toNat]? = some len ∧
      dig[len - 1]? = some last ∧ off.toNat = last.toNat % 16 ∧
      (∀ j (h : j < 4), dig[off.toNat + j]? = some win[j]) ∧
      bin.toNat = win[0].toNat % 128 * 2 ^ 24 + win[1].toNat * 2 ^ 16 + win[2].toNat * 2 ^ 8 + win[3].toNat ∧
      otp.toNat = bin.toNat % 10 ^ n.toNat ∧
      r[0] = 0x02 ∧ r[1] = 0x00 ∧ fromBe (byteRange r.toList 2 5) = otp.toNat ∧
      ∀ k (h : k < 4), r[6 + k] = 0

/-- R92: the two checks, in their order. `N = 0` raises `InvalidOtpLength` whatever `ALG` is; then an `ALG` above `0x03`
raises `UnsupportedAlgorithm`. The whole next state: `RS` and `PH` are written and nothing else is (R136). -/
def Obligations.DtrmChecksInOrder : Prop :=
  (∀ (alg : Byte) (dig : Vector Byte 64) (s : State), exec (.dtrm alg 0 dig) s =
    .next { s with blk := { s.blk with ph := .done, rs := some #v[0x02, 0x01, 0, 0, 0, 0, 0, 0, 0, 0] } }) ∧
  (∀ (alg : Byte) (n : BitVec 32) (dig : Vector Byte 64) (s : State), n ≠ 0 → 3 < alg.toNat →
    exec (.dtrm alg n dig) s =
      .next { s with blk := { s.blk with ph := .done, rs := some #v[0x02, 0x04, 0, 0, 0, 0, 0, 0, 0, 0] } })

/-- The frame of `DTRM`: whatever its operands, only `LEN`, `OFF`, `WIN`, `BIN`, `OTP`, `RS` and `PH` can change, and on
an error only `RS` and `PH` (R27, R48). It stores nothing: every byte of memory reads as before. -/
def Obligations.DtrmFrame : Prop :=
  ∀ (alg : Byte) (n : BitVec 32) (dig : Vector Byte 64) (s u : State), exec (.dtrm alg n dig) s = .next u →
    u.blk.rq = s.blk.rq ∧ u.blk.q = s.blk.q ∧ u.pins = s.pins ∧ u.env = s.env ∧
    (∀ a, Memory.read u.blk.msg a = Memory.read s.blk.msg a) ∧
    (n = 0 ∨ 3 < alg.toNat → u.blk.len = s.blk.len ∧ u.blk.off = s.blk.off ∧ u.blk.win = s.blk.win ∧
      u.blk.bin = s.blk.bin ∧ u.blk.otp = s.blk.otp)

/-- Section 3 (R95): the assembly is the window as a big-endian integer with bit 31 cleared, bit by bit. -/
def Obligations.AssemblyIsBigEndian : Prop :=
  ∀ win : Vector Byte 4,
    (binOf win).toNat = fromBe win.toList % 2 ^ 31 ∧
    (binOf win).extractLsb' 24 7 = win[0].extractLsb' 0 7 ∧ (binOf win).extractLsb' 16 8 = win[1] ∧
    (binOf win).extractLsb' 8 8 = win[2] ∧ (binOf win).extractLsb' 0 8 = win[3]

/-- R96, R99: the reduction is by the exact integer power for every `N`, however large. The spec gives it for `N ≥ 1`; its
value at `N = 0` is the model's choice (assumption 25). -/
def Obligations.ReductionIsExact : Prop :=
  ∀ (bin : BitVec 31) (n : Nat), (otpOf bin n).toNat = bin.toNat % 10 ^ n

/-- Section 4 (R98, marked derived there): from ten digits on the reduction is the identity, in the machine's latches. -/
def Obligations.LargeLengthIsIdentity : Prop :=
  ∀ (alg : Byte) (n : BitVec 32) (dig : Vector Byte 64) (s : State), 10 ≤ n.toNat → alg.toNat ≤ 3 →
    ∃ u bin, exec (.dtrm alg n dig) s = .next u ∧ u.blk.bin = some bin ∧ u.blk.otp = some bin

/-- Section 4 (R97, marked derived there): `OTP ≤ BIN` and `OTP < 10^N`, the digits of `OTP` are the last `N` of `BIN`. -/
def Obligations.ResultRanges : Prop :=
  ∀ (alg : Byte) (n : BitVec 32) (dig : Vector Byte 64) (s : State), n ≠ 0 → alg.toNat ≤ 3 →
    ∃ u bin otp, exec (.dtrm alg n dig) s = .next u ∧ u.blk.bin = some bin ∧ u.blk.otp = some otp ∧
      otp ≤ bin ∧ otp.toNat < 10 ^ n.toNat ∧ otp.toNat ≡ bin.toNat [MOD 10 ^ n.toNat]

/-- Section 4 of spec/20_memory.md (R47, partly marked derived there): the window is inside the digest at every one of
its 16 places, and for `LEN = 20` it never reaches the last byte. -/
def Obligations.WindowInsideTheDigest : Prop :=
  ∀ (alg : Byte) (n : BitVec 32) (dig : Vector Byte 64) (s : State), n ≠ 0 → alg.toNat ≤ 3 →
    ∃ u len off, exec (.dtrm alg n dig) s = .next u ∧ u.blk.len = some len ∧ u.blk.off = some off ∧
      off.toNat + 3 < len - 1 ∧ len ≤ 64

/-- Section 4 (R100, marked derived there): two `DTRM` requests that agree on `N`, `ALG`, the low nibble of the last byte
and the 31 window bits get equal responses, whatever else their digests and the two states hold. -/
def Obligations.ResultDependsOnTheWindowOnly : Prop :=
  ∀ (alg : Byte) (n : BitVec 32) (dig dig' : Vector Byte 64) (s s' : State) (a : Alg), Alg.ofByte alg = some a →
    (lastByte a dig).toNat % 16 = (lastByte a dig').toNat % 16 →
    (digestWindow a dig)[0].toNat % 128 = (digestWindow a dig')[0].toNat % 128 →
    (∀ j (h : j < 4), 0 < j → (digestWindow a dig)[j] = (digestWindow a dig')[j]) →
    ∃ u u', exec (.dtrm alg n dig) s = .next u ∧ exec (.dtrm alg n dig') s' = .next u' ∧ u.blk.rs = u'.blk.rs

/-! ### Operand views and memory (spec/10_state.md, spec/20_memory.md) -/

/-- R25, R26: the operand views of `RQ`, each valid under its own opcode only: `T` and `P` for `TCTR`; `ALG`, `N` and
`DIG[a] = RQ[6+a]` for `DTRM`. They hold no value when `RQ` holds none. -/
def Obligations.OperandViewsReadTheRequest : Prop :=
  ∀ b : Block,
    (∀ w, b.rq = some w → w[0] = 0x01 → ∃ t p, b.viewT = some t ∧ b.viewP = some p ∧
      t.toNat = fromBe (byteRange w.toList 1 8) ∧ p.toNat = fromBe (byteRange w.toList 9 16) ∧
      b.viewAlg = none ∧ b.viewN = none ∧ b.dig = none) ∧
    (∀ w, b.rq = some w → w[0] = 0x02 → ∃ n d, b.viewAlg = some w[1] ∧ b.viewN = some n ∧ b.dig = some d ∧
      n.toNat = fromBe (byteRange w.toList 2 5) ∧ (∀ a (h : a < 64), d[a] = w[6 + a]) ∧
      b.viewT = none ∧ b.viewP = none) ∧
    (b.rq = none → b.opc = none ∧ b.viewT = none ∧ b.viewP = none ∧ b.viewAlg = none ∧ b.viewN = none ∧
      b.dig = none)

/-- R44: `MemRead` in bounds gives the bytes of `DIG`, lowest address first; out of bounds it is a fault of the model. -/
def Obligations.MemReadIsBounded : Prop :=
  ∀ (dig : Vector Byte 64) (b : Block) (addr n len : Nat), b.len = some len → len ≤ 64 →
    (addr + n ≤ len → ∃ bs, memRead dig b addr n = .ok bs ∧ ∀ j (h : j < n), dig[addr + j]? = some bs[j]) ∧
    (len < addr + n → memRead dig b addr n = .error (.digBounds addr n))

/-- Section 3 (R45): `MemWrite` in bounds puts byte `i` at address `addr + i` and leaves every other address and every
other latch alone. R45 does not say what a violated precondition does: that it is a fault of the model is the model's
choice (assumption 24). -/
def Obligations.MemWriteIsBounded : Prop :=
  ∀ (b : Block) (addr : Nat) (v : List Byte),
    (addr + v.length ≤ 8 → ∃ m, memWrite b addr v = .ok { b with msg := m } ∧
      (∀ i (h : i < v.length), Memory.read m (addr + i) = some v[i]) ∧
      (∀ a, a < addr ∨ addr + v.length ≤ a → Memory.read m a = Memory.read b.msg a)) ∧
    (8 < addr + v.length → memWrite b addr v = .error (.msgBounds addr v.length))

/-- Every step keeps the memory of the state in its canonical form, and inside the addresses `MSG` has (R41). -/
def Obligations.StepKeepsMemoryCanonical : Prop :=
  ∀ s t : State, Memory.wf s.blk.msg → Memory.inSpace 8 s.blk.msg → step s = .next t →
    Memory.wf t.blk.msg ∧ Memory.inSpace 8 t.blk.msg

/-- Two memories in canonical form that read the same everywhere are the same data. -/
def Obligations.CanonicalMemoryIsItsReads : Prop :=
  ∀ m m' : Memory, Memory.wf m → Memory.wf m' → (∀ a, Memory.read m a = Memory.read m' a) → m = m'

/-! ### Errors (spec/60_exceptions.md) -/

/-- R135: a word whose byte 0 names no operation completes with `IllegalOperation`, the echo byte in front; no result
latch is written, and the pins and the host's side stay. -/
def Obligations.IllegalWordIsAnswered : Prop :=
  ∀ (w : ReqWord) (s : State), w[0] ≠ 0x01 → w[0] ≠ 0x02 →
    step (loadRequest w s) =
      .next ((loadRequest w s).setBlk
        { acceptedBlock w with ph := .done, rs := some #v[w[0], 0x06, 0, 0, 0, 0, 0, 0, 0, 0] })

/-- R73 with R70 and R72 (spec/95_test_vectors.md, L9): every request word is answered; the echo is its byte 0, the
status is one of the five the block produces, an error carries eight zero bytes, and a `DTRM` success has bit 7 of
`RS[2]` clear and bytes 6 to 9 zero. -/
def Obligations.ResponseWordShape : Prop :=
  ∀ (w : ReqWord) (s : State), ∃ r, s.responseTo w = some r ∧ r[0] = w[0] ∧
    r[1] ∈ ([0x00, 0x01, 0x03, 0x04, 0x06] : List Byte) ∧
    (r[1] ≠ 0x00 → ∀ k (h : k < 8), r[2 + k] = 0) ∧
    (w[0] = 0x02 → r[1] = 0x00 → r[2].toNat < 128 ∧ ∀ k (h : k < 4), r[6 + k] = 0)

/-- Section 2 (R139 by R132, marked derived there; L6): the status is `0x00` exactly when the operands pass. -/
def Obligations.SuccessIffOperandsPass : Prop :=
  ∀ (w : ReqWord) (s : State), ∃ r, s.responseTo w = some r ∧
    (r[1] = 0x00 ↔ (w[0] = 0x01 ∧ fromBe (byteRange w.toList 9 16) ≠ 0) ∨
      (w[0] = 0x02 ∧ fromBe (byteRange w.toList 2 5) ≠ 0 ∧ w[1].toNat ≤ 3))

/-- R138 by R136: an operation that ends in an error leaves every result latch without a value. -/
def Obligations.ErrorsWriteNoResult : Prop :=
  ∀ (w : ReqWord) (s : State), ∃ t r, step (loadRequest w s) = .next t ∧ t.blk.rs = some r ∧
    (r[1] ≠ 0x00 → t.blk = { acceptedBlock w with ph := .done, rs := some r })

/-- The status a host reads stands for the cause: reading a response word gives back the response it was made from. -/
def Obligations.HostReadsTheResponse : Prop :=
  ∀ w : ReqWord, readResponse (resp w) = some (answer w)

/-! ### The three steps, the ports, reset (spec/10_state.md, spec/70_reset_and_hazards.md) -/

/-- R31: the Execute step runs the operation the request latch decodes to. With no move of the host planned the step
is exec of it at that state; with `wait` planned, that move is taken off the script first. The script is the model's
(assumption 2). -/
def Obligations.StepRunsTheDecodedOperation : Prop :=
  ∀ (s : State) (w : ReqWord) (i : Instr), s.pins.reset = false → s.blk.ph = .busy → s.blk.rq = some w →
    decode w = .instr i →
    (s.env.script = [] → step s = exec i s) ∧
    (∀ rest, s.env.script = .wait :: rest →
      step s = exec i { s with env := { s.env with script := rest } })

/-- A word placed by `withFetchWord` is what the next step runs, from every state (assumption 6). -/
def Obligations.PlacedWordRunsNext : Prop :=
  ∀ (s : State) (nbits w : Nat) (i : Instr), decodeTableWord nbits w = some i →
    step (s.withFetchWord nbits w) = exec i (s.withFetchWord nbits w)

/-- Section 4 (R30): Accept, when it is enabled and its effect. It samples `req_data`, writes `RQ` and `PH`, and checks
nothing. Without `req_valid` nothing happens, outside `IDLE` no word is accepted, and under `reset` none is. The model's choices
in it: `env.accepted` is its record of Accepts, emptied under `reset` (assumption 12), the empty script is its way to let
the block move (assumption 2), and where no step is enabled it answers the unchanged state (assumption 3), but under
`reset`, where by its reading of R150 the latches stay cleared at every step (assumption 11). -/
def Obligations.AcceptSamplesTheRequest : Prop :=
  ∀ s : State, s.env.script = [] →
    (s.pins.reset = false → s.blk.ph = .idle → s.pins.reqValid = true → step s =
      .next { s with
        blk := { s.blk with rq := some s.pins.reqData, ph := .busy }
        env := { s.env with accepted := s.env.accepted ++ [s.pins.reqData] } }) ∧
    (s.pins.reset = false → s.blk.ph = .idle → s.pins.reqValid = false → step s = .next s) ∧
    (s.pins.reset = false → s.blk.ph ≠ .idle → s.reqReady = false ∧
      ∀ t, step s = .next t → t.env.accepted = s.env.accepted) ∧
    (s.pins.reset = true → s.reqReady = false ∧
      ∃ t, step s = .next t ∧ t.blk.rq = none ∧ t.blk.ph = .idle ∧ t.env.accepted = [])

/-- Section 4 (R32): Deliver. The host receives `RS`, every latch but `PH` holds no value again and `PH` is `IDLE`; while
`rsp_ready` is low the block stays in `DONE` with `rsp_data` stable; under `reset` nothing is delivered.
The model's choices in it: `env.delivered` is its record of Delivers, emptied under `reset` (assumption 12), the empty
script is its way to let the block move (assumption 2), and a waiting block answers the unchanged state (assumption 3),
but under `reset`, where by its reading of R150 every step is the Reset event again (assumption 11). -/
def Obligations.DeliverClearsTheBlock : Prop :=
  ∀ (s : State) (r : RspWord), s.env.script = [] → s.blk.ph = .done → s.blk.rs = some r →
    (s.pins.reset = false → s.rspValid = true ∧ s.rspData = some r ∧
      (s.pins.rspReady = true → step s = .next
        { s with
          blk := { ph := .idle, rq := none, q := none, msg := [], len := none, off := none, win := none, bin := none,
                   otp := none, rs := none }
          env := { s.env with delivered := s.env.delivered ++ [r] } }) ∧
      (s.pins.rspReady = false → step s = .next s)) ∧
    (s.pins.reset = true → s.rspValid = false ∧ ∃ t, step s = .next t ∧ t.env.delivered = [])

/-- Section 1 (R150): raising `reset` in any state leaves the block as after reset with both handshake outputs low, while
it is high no step of the block is enabled, and lowering it leaves the block in that state. The model's choices in it: the
host's moves are a script (assumption 2), a block with no enabled step answers a next state (assumption 3), and, a
deduction, the latches are cleared when `reset` rises and stay so while it is high (assumption 11). -/
def Obligations.ResetFromEveryState : Prop :=
  (∀ (s : State) (p : Pins) (rest : List HostMove), s.env.script = .drive p :: rest → p.reset = true →
    ∃ t, step s = .next t ∧ t.blk = State.reset.blk ∧ t.pins = p ∧ t.reqReady = false ∧ t.rspValid = false) ∧
  (∀ s : State, s.env.script = [] → s.pins.reset = true →
    ∃ t, step s = .next t ∧ t.blk = State.reset.blk ∧ t.pins = s.pins ∧ t.reqReady = false ∧ t.rspValid = false) ∧
  (∀ (s : State) (p : Pins) (rest : List HostMove), s.env.script = .drive p :: rest → p.reset = false →
    ∃ t, step s = .next t ∧ t.blk = s.blk ∧ t.pins = p)

/-- R35: the table of reset values, the views of `RQ` and the outputs with it. The pins and the host's side of the
ports are the model's own (assumptions 1, 2 and 12) and are not stated. -/
def Obligations.ResetValues : Prop :=
  State.reset.blk.ph = .idle ∧ State.reset.blk.rq = none ∧ State.reset.blk.opc = none ∧
  State.reset.blk.viewT = none ∧ State.reset.blk.viewP = none ∧ State.reset.blk.viewAlg = none ∧
  State.reset.blk.viewN = none ∧ State.reset.blk.dig = none ∧ State.reset.blk.q = none ∧
  (∀ a, Memory.read State.reset.blk.msg a = none) ∧ State.reset.blk.len = none ∧ State.reset.blk.off = none ∧
  State.reset.blk.win = none ∧ State.reset.blk.bin = none ∧ State.reset.blk.otp = none ∧
  State.reset.blk.rs = none ∧
  (∀ s : State, s.blk = State.reset.blk → s.rspValid = false ∧ s.reqReady = !s.pins.reset)

/-- Section 2 (R29): reset leaves a coherent state: in `IDLE` no latch but `PH` holds a value. -/
def Obligations.ResetIsCoherent : Prop := State.reset.Coherent

/-- Sections 2 and 4 (R29, R31, R33): every step of the machine, whoever moves, keeps the block coherent: idle and
empty, or holding just the accepted word, or holding exactly what the Execute of that word writes. While `reset` is high
it is as after reset (R150; assumption 11), and a block with no enabled step answers a next state (assumption 3). -/
def Obligations.StepKeepsCoherent : Prop :=
  ∀ s t : State, s.Coherent → step s = .next t → t.Coherent

/-- Section 2 (R29): no step of a coherent machine reads a latch that holds no value, and none is stuck: every step
answers a next state. That a block with no enabled step (R147) answers the unchanged state, and so is not stuck, is the
model's choice (assumption 3). -/
def Obligations.CoherentMachineNeverStops : Prop :=
  ∀ s : State, s.Coherent → ∃ t, step s = .next t

/-- Section 3 (R34): in a coherent machine `rsp_data` shows, while `rsp_valid` is high, the response to the request the
block holds, and no port shows a latch otherwise. -/
def Obligations.ResponsePortShowsTheResponse : Prop :=
  ∀ s : State, s.Coherent →
    (s.rspValid = true → ∃ w, s.blk.rq = some w ∧ s.rspData = some (resp w)) ∧
    (s.rspValid = false → s.rspData = none)

/-- Section 4 (R33, marked derived there): Execute writes exactly what the request word determines, whatever the machine
did before: the response is `Resp` of the word, and the latches are those of `executed`. The state is the one after the
Accept of the word by an empty block (`loadRequest`, assumption 6). -/
def Obligations.ExecuteIsAFunctionOfTheWord : Prop :=
  ∀ (w : ReqWord) (s : State),
    step (loadRequest w s) = .next ((loadRequest w s).setBlk (executed w)) ∧ (executed w).rs = some (resp w)

/-- R4 and R33: the response of an operation does not depend on the state it runs in, not even on latches that hold
values or on the pins, so nothing of an earlier operation shows in it. -/
def Obligations.ResponseIgnoresTheState : Prop :=
  ∀ (i : Instr) (s s' : State), ∃ u u', exec i s = .next u ∧ exec i s' = .next u' ∧
    u.blk.rs = u'.blk.rs ∧ u.blk.ph = u'.blk.ph

/-- R67 and R68 (L7): two request words that differ only in ignored or padding bytes get equal responses; where `DTRM`
raises its error before reading the digest, the whole field is ignored. -/
def Obligations.IgnoredBytesDoNotMatter : Prop :=
  ∀ (w w' : ReqWord) (s s' : State),
    (w[0] = 0x01 → (∀ k (h : k < 70), k ≤ 16 → w[k] = w'[k]) → s.responseTo w = s'.responseTo w') ∧
    (∀ a, w[0] = 0x02 → Alg.ofByte w[1] = some a → (∀ k (h : k < 70), k < 6 + a.dlen → w[k] = w'[k]) →
      s.responseTo w = s'.responseTo w') ∧
    (w[0] = 0x02 → (3 < w[1].toNat ∨ fromBe (byteRange w.toList 2 5) = 0) →
      (∀ k (h : k < 70), k < 6 → w[k] = w'[k]) → s.responseTo w = s'.responseTo w')

/-! ### Runs (spec/00_scope.md R12, spec/70_reset_and_hazards.md) -/

/-- Reset leaves nothing accepted and nothing delivered: the observation of R12 starts true (assumption 12). -/
def Obligations.ResetIsFaithful : Prop := State.reset.Faithful

/-- Section 4 (R12), through the model's record of the words (assumption 12): every step of a coherent machine keeps
the observation: what was delivered since the last reset is the list of
responses to what was accepted, in order, none lost and none answered twice. -/
def Obligations.StepKeepsObservation : Prop :=
  ∀ s t : State, s.Coherent → s.Faithful → step s = .next t → t.Faithful

/-- R12 for every host: whatever the host's moves are, legal or not, resets among them, every run from reset goes on
and every state of it meets the observation. The model's choices in it: the host's moves are a script (assumption 2), a
block with nothing to do goes on unchanged (assumption 3), the observation is the model's record (assumption 12). -/
def Obligations.EveryRunIsFaithful : Prop :=
  ∀ (script : List HostMove) (n : Nat), ∃ t,
    stepN n { State.reset with env := { State.reset.env with script := script } } = some t ∧
      t.Coherent ∧ t.Faithful

/-- R165: once `PH = BUSY` and `reset` stays low, Execute happens, within as many events as the host has moves planned
and one more. The scheduling is the model's (assumption 2). -/
def Obligations.ExecuteHappens : Prop :=
  ∀ (s : State) (w : ReqWord), s.blk = acceptedBlock w → s.pins.reset = false → noReset s.env.script →
    ∃ n t, n ≤ s.env.script.length + 1 ∧ stepN n s = some t ∧ t.blk = executed w

/-- R160 with R30 to R32: a host that presents a word to an empty block and takes the response gets `Resp` of the word,
and the block is empty again, whatever the word is. The host's moves are a script (assumption 2), the words are told from
the model's record (assumption 12). -/
def Obligations.SessionGetsTheResponse : Prop :=
  ∀ (w : ReqWord) (s : State), s.blk = Block.reset →
    ∃ t, transact w s = some (resp w, t) ∧ t.blk = Block.reset ∧ t.pins = Pins.quiet ∧
      t.env.script = s.env.script ∧ t.env.accepted = s.env.accepted ++ [w] ∧
      t.env.delivered = s.env.delivered ++ [resp w]

/-- R151: an operation that reset abandons, in `BUSY` or in `DONE`, is never answered, and the same word presented again
gets the response it would have had, the only one delivered. The host's moves are a script (assumption 2), the latches
are cleared when `reset` rises (assumption 11), the words are told from the model's record (assumption 12). -/
def Obligations.AbandonedOperationIsNotAnswered : Prop :=
  ∀ (w : ReqWord) (s : State) (p : Pins), s.Coherent → s.blk.rq = some w → p.reset = true →
    ∃ t, step (s.plan [.drive p]) = .next t ∧ t.blk = Block.reset ∧ t.rspValid = false ∧
      ∃ v, transact w t = some (resp w, v) ∧ v.env.accepted = [w] ∧ v.env.delivered = [resp w]

/-! ### The notation (spec/30_encoding.md section 6) -/

/-- R77, R79: the word of a line within the limits decodes to the line's operands; a digest is filled up with `0x00`, a
length left out is 6. A `.word` line of 70 bytes is those bytes, byte 0 first. -/
def Obligations.AssembledLineDecodes : Prop :=
  (∀ t p : Nat, t < 2 ^ 64 → p < 2 ^ 64 → ∃ w, (Line.tctr t p).assemble = some w ∧
    decode w = .instr (.tctr (BitVec.ofNat 64 t) (BitVec.ofNat 64 p)) ∧ ∀ k (h : k < 70), 17 ≤ k → w[k] = 0) ∧
  (∀ (alg : AlgOperand) (len : Option Nat) (digest : List Byte), (Line.dtrm alg len digest).wellFormed = true →
    ∃ w d, (Line.dtrm alg len digest).assemble = some w ∧
      decode w = .instr (.dtrm alg.code (BitVec.ofNat 32 (len.getD 6)) d) ∧
      ∀ a (h : a < 64), d[a] = digest[a]?.getD 0) ∧
  (∀ bytes : List Byte, bytes.length = 70 → ∃ w, (Line.word bytes).assemble = some w ∧ w.toList = bytes)

/-- R78: `ENC8 counter=c` is `TCTR time=c, period=1`, and its answer is the plain big-endian encoding of `c`. -/
def Obligations.Enc8AnswersTheCounter : Prop :=
  ∀ c : Nat, c < 2 ^ 64 → (Line.enc8 c).assemble = (Line.tctr c 1).assemble ∧
    ∃ w, (Line.enc8 c).assemble = some w ∧ answer w = .okTctr (beVec 8 c)

/-- A line of each form of R77 and R78 as text, the line it reads as, and the word that line assembles to, as a
560-bit number: `TCTR`, `ENC8`, `DTRM` by name with its length and without, `DTRM` with a raw selector, and `.word`.
Texts and words are those of vectors T1, T8, H0, F3 and F10 of spec/95_test_vectors.md. Then the four names of
`alg=`, and the text of a response of each form. How text is read and written where R77 leaves it open is the model's choice
(assumptions 19 and 23). -/
def Obligations.SampleLinesAssemble : Prop :=
  readLine "TCTR time=59, period=30".toList =
    some (Line.tctr 59 30) ∧
  (Line.tctr 59 30).assemble.map wordNumber =
    some 0x01000000000000003B000000000000001E0000000000000000000000000000000000000000000000000000000000000000000000000000000000000000000000000000000000 ∧
  readLine "ENC8 counter=0x0123456789ABCDEF".toList =
    some (Line.enc8 0x0123456789ABCDEF) ∧
  (Line.enc8 0x0123456789ABCDEF).assemble.map wordNumber =
    some 0x010123456789ABCDEF00000000000000010000000000000000000000000000000000000000000000000000000000000000000000000000000000000000000000000000000000 ∧
  readLine "DTRM alg=SHA1, len=6, digest=cc93cf18508d94934c64b65d8ba7667fb7cde4b0".toList =
    some (Line.dtrm (.name .sha1) (some 6) (be 20 0xCC93CF18508D94934C64B65D8BA7667FB7CDE4B0)) ∧
  (Line.dtrm (.name .sha1) (some 6) (be 20 0xCC93CF18508D94934C64B65D8BA7667FB7CDE4B0)).assemble.map wordNumber =
    some 0x020000000006CC93CF18508D94934C64B65D8BA7667FB7CDE4B00000000000000000000000000000000000000000000000000000000000000000000000000000000000000000 ∧
  readLine "DTRM alg=SHA1, digest=cc93cf18508d94934c64b65d8ba7667fb7cde4b0".toList =
    some (Line.dtrm (.name .sha1) none (be 20 0xCC93CF18508D94934C64B65D8BA7667FB7CDE4B0)) ∧
  (Line.dtrm (.name .sha1) none (be 20 0xCC93CF18508D94934C64B65D8BA7667FB7CDE4B0)).assemble.map wordNumber =
    some 0x020000000006CC93CF18508D94934C64B65D8BA7667FB7CDE4B00000000000000000000000000000000000000000000000000000000000000000000000000000000000000000 ∧
  readLine "DTRM alg=#4, len=0, digest=cc93cf18508d94934c64b65d8ba7667fb7cde4b0".toList =
    some (Line.dtrm (.raw 4) (some 0) (be 20 0xCC93CF18508D94934C64B65D8BA7667FB7CDE4B0)) ∧
  (Line.dtrm (.raw 4) (some 0) (be 20 0xCC93CF18508D94934C64B65D8BA7667FB7CDE4B0)).assemble.map wordNumber =
    some 0x020400000000CC93CF18508D94934C64B65D8BA7667FB7CDE4B00000000000000000000000000000000000000000000000000000000000000000000000000000000000000000 ∧
  readLine ".word 7E0000000006CC93CF18508D94934C64B65D8BA7667FB7CDE4B00000000000000000000000000000000000000000000000000000000000000000000000000000000000000000".toList =
    some (Line.word (be 70 0x7E0000000006CC93CF18508D94934C64B65D8BA7667FB7CDE4B00000000000000000000000000000000000000000000000000000000000000000000000000000000000000000)) ∧
  (Line.word (be 70 0x7E0000000006CC93CF18508D94934C64B65D8BA7667FB7CDE4B00000000000000000000000000000000000000000000000000000000000000000000000000000000000000000)).assemble.map wordNumber =
    some 0x7E0000000006CC93CF18508D94934C64B65D8BA7667FB7CDE4B00000000000000000000000000000000000000000000000000000000000000000000000000000000000000000 ∧
  readAlg "SHA1".toList = some (.name .sha1) ∧ readAlg "SHA256".toList = some (.name .sha256) ∧
  readAlg "SHA384".toList = some (.name .sha384) ∧ readAlg "SHA512".toList = some (.name .sha512) ∧
  showResponse (.okTctr (beVec 8 1)) = "-> OK 0000000000000001".toList ∧
  showResponse (.okDtrm 755224) = "-> OK 000B8618".toList ∧
  showResponse (.err .invalidOtpLength) = "-> ERR InvalidOtpLength".toList ∧
  showResponse (.err .invalidPeriod) = "-> ERR InvalidPeriod".toList ∧
  showResponse (.err .unsupportedAlgorithm) = "-> ERR UnsupportedAlgorithm".toList ∧
  showResponse (.err .illegalOperation) = "-> ERR IllegalOperation".toList

/-! ### The surrounding system (spec/50_system_composition.md) -/

/-- R111: the host's flow through the block computes `totpNumeric`, for every keyed-hash function. -/
def Obligations.FlowComputesTotp : Prop :=
  ∀ (hmac : Hmac) (key : List Byte) (a : Alg) (t p : BitVec 64) (n : BitVec 32) (s : State),
    p ≠ 0 → n ≠ 0 → s.blk = Block.reset →
    ∃ u, totpOnBlock hmac key a t p n s = some (totpNumeric hmac key a t p n.toNat, u) ∧ u.blk = Block.reset

/-- R111: on an error of the block the host stops with its cause: `InvalidPeriod` after step 1, whatever the rest. -/
def Obligations.FlowStopsOnInvalidPeriod : Prop :=
  ∀ (hmac : Hmac) (key : List Byte) (a : Alg) (t : BitVec 64) (n : BitVec 32) (s : State), s.blk = Block.reset →
    ∃ u, totpOnBlock hmac key a t 0 n s = some (.error (.block .invalidPeriod), u) ∧ u.blk = Block.reset

/-- R116: the formatted string is decimal digits, exactly `otpLength` of them, and reads back as the number: what is
in front of the significant digits is `'0'`, and none of them is lost. -/
def Obligations.FormattedCodeIsFixedWidth : Prop :=
  ∀ otp len : Nat, 1 ≤ len → otp < 10 ^ len →
    (formatOtp otp len).length = len ∧ (∀ c ∈ formatOtp otp len, c.isDigit = true) ∧
    (formatOtp otp len).foldl (fun acc c => acc * 10 + (c.toNat - '0'.toNat)) 0 = otp

/-- Section 1 (R113, R117, R118) and section 2 (R121): the entry point validates first, with a typed error each; a
secret the decoder rejects is `InvalidSecret`; an error of the keyed hash comes out as it is; and a valid call whose
collaborators succeed returns the formatted OTP: exactly `otpLength` decimal digits that read back as the `BIN` of the
digest modulo `10^otpLength`, which is `totpNumeric` of R111 wherever the period fits the block's 64 bits. The order of
the three checks is the model's choice (assumption 17), so each is stated with the others passing. That the period and
the length are unbounded integers, and that the entry point computes on them, is the model's choice (assumption 18). -/
def Obligations.EntryPointValidates : Prop :=
  ∀ (dec : SecretDecoder) (hmac : Hmac) (secret : List Char) (a : Alg) (period : Int) (now : BitVec 64) (len : Int),
    (len < 1 → secret ≠ [] → 1 ≤ period →
      generateTotp dec hmac secret a period now len = .error (.block .invalidOtpLength)) ∧
    (1 ≤ len → secret = [] → 1 ≤ period → generateTotp dec hmac secret a period now len = .error .invalidSecret) ∧
    (1 ≤ len → secret ≠ [] → period < 1 →
      generateTotp dec hmac secret a period now len = .error (.block .invalidPeriod)) ∧
    (1 ≤ len → secret ≠ [] → 1 ≤ period → dec secret = none →
      generateTotp dec hmac secret a period now len = .error .invalidSecret) ∧
    (∀ key e, 1 ≤ len → secret ≠ [] → 1 ≤ period → dec secret = some key →
      hmac a key (beVec 8 (now.toNat / period.toNat)) = .error e →
      generateTotp dec hmac secret a period now len = .error e) ∧
    (∀ key d, 1 ≤ len → secret ≠ [] → 1 ≤ period → dec secret = some key →
      hmac a key (beVec 8 (now.toNat / period.toNat)) = .ok d →
      ∃ cs otp, generateTotp dec hmac secret a period now len = .ok cs ∧ (cs.length : Int) = len ∧
        (∀ c ∈ cs, c.isDigit = true) ∧
        cs.foldl (fun acc c => acc * 10 + (c.toNat - '0'.toNat)) 0 = otp.toNat ∧
        otp.toNat = (digestBin a (digestOperand a d)).toNat % 10 ^ len.toNat ∧
        ∀ p : BitVec 64, p.toNat = period.toNat → totpNumeric hmac key a now p len.toNat = .ok otp)

/-- Section 2 (R121, D00's first property): two calls within the same time window give the same answer. That the entry
point computes on an unbounded period and length is the model's choice (assumption 18). -/
def Obligations.SameWindowSameCode : Prop :=
  ∀ (dec : SecretDecoder) (hmac : Hmac) (secret : List Char) (a : Alg) (period : Int) (t₁ t₂ : BitVec 64) (len : Int),
    t₁.toNat / period.toNat = t₂.toNat / period.toNat →
    generateTotp dec hmac secret a period t₁ len = generateTotp dec hmac secret a period t₂ len

/-- R111: the flow with a length of 0. Step 3 ends it with `InvalidOtpLength` once the keyed hash has answered a digest,
and an error of the keyed hash ends it before, at step 2. -/
def Obligations.FlowStopsOnInvalidOtpLength : Prop :=
  ∀ (hmac : Hmac) (key : List Byte) (a : Alg) (t p : BitVec 64) (s : State), p ≠ 0 → s.blk = Block.reset →
    (∀ d, hmac a key (beVec 8 (t.toNat / p.toNat)) = .ok d →
      ∃ u, totpOnBlock hmac key a t p 0 s = some (.error (.block .invalidOtpLength), u) ∧ u.blk = Block.reset) ∧
    (∀ e, hmac a key (beVec 8 (t.toNat / p.toNat)) = .error e →
      ∃ u, totpOnBlock hmac key a t p 0 s = some (.error e, u) ∧ u.blk = Block.reset)
end

