-- ==== Sys2Proof/Laws/Bytes.lean ====
section
/-! SUPPORT. Byte order: `from_be` and `be` undo each other (spec/00_scope.md R7), and what the fields of a word are. -/

namespace Sys2Proof

theorem fromBe_lt (B : List Byte) : fromBe B < 256 ^ B.length := by
  induction B with
  | nil => simp [fromBe]
  | cons b bs ih =>
    simp only [fromBe, List.length_cons, pow_succ]
    have := b.isLt
    nlinarith [Nat.pow_pos (n := bs.length) (show 0 < 256 by norm_num)]

theorem fromBe_append (A B : List Byte) : fromBe (A ++ B) = fromBe A * 256 ^ B.length + fromBe B := by
  induction A with
  | nil => simp [fromBe]
  | cons a as ih => simp only [List.cons_append, fromBe, ih, List.length_append, pow_add]; ring

theorem fromBe_be (n v : Nat) : fromBe (be n v) = v % 256 ^ n := by
  induction n with
  | zero => simp [be, fromBe, Nat.mod_one]
  | succ n ih =>
    simp only [be, fromBe, ih, be_length, BitVec.toNat_ofNat, Nat.shiftRight_eq_div_pow, pow_mul, pow_succ]
    norm_num
    rw [Nat.mod_mul, add_comm, mul_comm]

theorem be_mod (n v : Nat) : be n (v % 256 ^ n) = be n v := by
  suffices h : ∀ k, n ≤ k → be n (v % 256 ^ k) = be n v from h n le_rfl
  induction n with
  | zero => intros; rfl
  | succ n ih =>
    intro k hk
    simp only [be, ih k (by omega), List.cons.injEq, and_true]
    apply BitVec.eq_of_toNat_eq
    simp only [BitVec.toNat_ofNat, Nat.shiftRight_eq_div_pow, pow_mul]
    norm_num
    obtain ⟨m, rfl⟩ : ∃ m, k = n + (m + 1) := ⟨k - n - 1, by omega⟩
    rw [pow_add, Nat.mod_mul_right_div_self, pow_succ', Nat.mod_mul_right_mod]

theorem be_fromBe (B : List Byte) : be B.length (fromBe B) = B := by
  induction B with
  | nil => rfl
  | cons b bs ih =>
    have hlt := fromBe_lt bs
    have hmod : (b.toNat * 256 ^ bs.length + fromBe bs) % 256 ^ bs.length = fromBe bs := by
      rw [mul_comm, Nat.mul_add_mod, Nat.mod_eq_of_lt hlt]
    simp only [List.length_cons, be, fromBe, List.cons.injEq]
    constructor
    · apply BitVec.eq_of_toNat_eq
      simp only [BitVec.toNat_ofNat, Nat.shiftRight_eq_div_pow, pow_mul]
      norm_num
      rw [mul_comm, Nat.mul_add_div (by positivity), Nat.div_eq_of_lt hlt]
      have := b.isLt
      omega
    · rw [← be_mod, hmod, ih]

theorem beVec_toList (n v : Nat) : (beVec n v).toList = be n v := rfl

theorem byteRange_length (B : List Byte) (i j : Nat) (h : j < B.length) :
    (byteRange B i j).length = j + 1 - i := by
  simp [byteRange]; omega

/-- The byte range of a middle part. -/
theorem byteRange_middle (A B C : List Byte) (i j : Nat) (hi : A.length = i) (hj : i + B.length = j + 1) :
    byteRange (A ++ B ++ C) i j = B := by
  subst hi
  simp only [byteRange, List.append_assoc, List.drop_left]
  rw [show j + 1 - A.length = B.length by omega, List.take_left]

/-- The field `TIME` is `from_be` of its bytes: eight bytes fit 64 bits. -/
theorem timeField_toNat (w : ReqWord) : (timeField w).toNat = fromBe (byteRange w.toList 1 8) := by
  have := fromBe_lt (byteRange w.toList 1 8)
  rw [byteRange_length _ _ _ (by simp)] at this
  simpa [timeField] using Nat.mod_eq_of_lt this

theorem periodField_toNat (w : ReqWord) : (periodField w).toNat = fromBe (byteRange w.toList 9 16) := by
  have := fromBe_lt (byteRange w.toList 9 16)
  rw [byteRange_length _ _ _ (by simp)] at this
  simpa [periodField] using Nat.mod_eq_of_lt this

theorem otpLenField_toNat (w : ReqWord) : (otpLenField w).toNat = fromBe (byteRange w.toList 2 5) := by
  have := fromBe_lt (byteRange w.toList 2 5)
  rw [byteRange_length _ _ _ (by simp)] at this
  simpa [otpLenField] using Nat.mod_eq_of_lt this

theorem digestField_getElem (w : ReqWord) (a : Nat) (h : a < 64) : (digestField w)[a] = w[6 + a] := by
  exact Vector.getElem_extract ..

/-! ### The three results of decode (R62) -/

theorem decode_tctr {w : ReqWord} (h : w[0] = opTctr) :
    decode w = .instr (.tctr (timeField w) (periodField w)) := by simp [decode, opcodeField, h]

theorem decode_dtrm {w : ReqWord} (h : w[0] = opDtrm) :
    decode w = .instr (.dtrm (algField w) (otpLenField w) (digestField w)) := by
  simp [decode, opcodeField, h, opTctr, opDtrm]

theorem decode_illegal {w : ReqWord} (h₁ : w[0] ≠ opTctr) (h₂ : w[0] ≠ opDtrm) :
    decode w = .illegal w[0] := by simp [decode, opcodeField, h₁, h₂]

/-! ### The bytes of an encoded word (R65, R66) -/

theorem encode_tctr_toList (t p : BitVec 64) : (encode (.tctr t p)).toList =
    [opTctr] ++ be 8 t.toNat ++ be 8 p.toNat ++ List.replicate 53 0 := by
  simp only [encode, Vector.toList_append, Vector.toList_replicate, beVec_toList]; rfl

theorem encode_dtrm_toList (a : Byte) (n : BitVec 32) (d : Vector Byte 64) :
    (encode (.dtrm a n d)).toList = [opDtrm, a] ++ be 4 n.toNat ++ d.toList := by
  simp only [encode, Vector.toList_append, beVec_toList]; rfl

theorem getElem_toList (w : Vector Byte n) (k : Nat) (h : k < n) : w[k] = w.toList[k]'(by simpa) := by simp

/-- Byte 0 of the word of an operation is its opcode. -/
theorem encode_opcode (i : Instr) : (encode i)[0] = i.opcode := by
  rw [getElem_toList]
  cases i with
  | tctr t p => simp only [encode_tctr_toList]; rfl
  | dtrm a n d => simp only [encode_dtrm_toList]; rfl

end Sys2Proof
end

