-- ==== Sys2Proof/Laws/Memory.lean ====
section
/-! SUPPORT. The memory of the state: reads see writes, and every write keeps the canonical form. -/

namespace Sys2Proof.Machine

@[simp] theorem Memory.read_nil (a : Nat) : Memory.read [] a = none := rfl

theorem Memory.read_write_same (m : Memory) (a : Nat) (v : Byte) : Memory.read (Memory.write m a v) a = some v := by
  induction m with
  | nil => simp [Memory.write, Memory.read]
  | cons c m ih =>
    obtain ⟨k, u⟩ := c
    simp only [Memory.write]
    split
    · simp [Memory.read, ih]; omega
    · split <;> simp [Memory.read]

theorem Memory.read_write_other (m : Memory) (a b : Nat) (v : Byte) (h : b ≠ a) :
    Memory.read (Memory.write m a v) b = Memory.read m b := by
  induction m with
  | nil => simp [Memory.write, Memory.read]; omega
  | cons c m ih =>
    obtain ⟨k, u⟩ := c
    simp only [Memory.write]
    split
    · simp [Memory.read, ih]
    · split
      · subst_vars; simp [Memory.read, h.symm]
      · simp [Memory.read, h.symm]

/-- A write lists no address but the written one and those listed before. -/
theorem Memory.mem_write {m : Memory} {a : Nat} {v : Byte} {c : Host.Cell} (h : c ∈ Memory.write m a v) :
    c.1 = a ∨ c ∈ m := by
  induction m with
  | nil => simp_all [Memory.write]
  | cons d m ih =>
    obtain ⟨k, u⟩ := d
    simp only [Memory.write] at h
    split at h
    · simp only [List.mem_cons] at h ⊢
      rcases h with h | h
      · exact .inr (.inl h)
      · exact (ih h).imp id .inr
    · split at h <;> simp only [List.mem_cons] at h ⊢ <;> rcases h with rfl | h <;> simp_all

theorem Memory.write_wf {m : Memory} (h : Memory.wf m) (a : Nat) (v : Byte) : Memory.wf (Memory.write m a v) := by
  induction m with
  | nil => simp [Memory.write, Memory.wf]
  | cons d m ih =>
    obtain ⟨k, u⟩ := d
    simp only [Memory.wf, List.pairwise_cons] at h
    simp only [Memory.write]
    split
    · simp only [Memory.wf, List.pairwise_cons]
      refine ⟨fun c hc => ?_, ih h.2⟩
      rcases Memory.mem_write hc with hc | hc
      · simpa [hc]
      · exact h.1 c hc
    · split
      · subst_vars; simpa [Memory.wf] using h
      · simp only [Memory.wf, List.pairwise_cons, List.mem_cons]
        refine ⟨?_, h⟩
        rintro c (rfl | hc)
        · simp; omega
        · have := h.1 c hc; simp at this ⊢; omega

theorem Memory.write_inSpace {n : Nat} {m : Memory} (h : Memory.inSpace n m) {a : Nat} (ha : a < n) (v : Byte) :
    Memory.inSpace n (Memory.write m a v) := by
  intro c hc
  rcases Memory.mem_write hc with hc | hc
  · omega
  · exact h c hc

theorem Memory.writeBytes_wf {m : Memory} (h : Memory.wf m) (a : Nat) (vs : List Byte) :
    Memory.wf (Memory.writeBytes m a vs) := by
  induction vs generalizing m a with
  | nil => exact h
  | cons v vs ih => exact ih (Memory.write_wf h a v) (a + 1)

theorem Memory.writeBytes_inSpace {n : Nat} {m : Memory} (h : Memory.inSpace n m) {a : Nat} {vs : List Byte}
    (ha : a + vs.length ≤ n) : Memory.inSpace n (Memory.writeBytes m a vs) := by
  induction vs generalizing m a with
  | nil => exact h
  | cons v vs ih =>
    simp only [List.length_cons] at ha
    exact ih (Memory.write_inSpace h (by omega) v) (by omega)

theorem Memory.read_writeBytes_outside (m : Memory) (a b : Nat) (vs : List Byte)
    (h : b < a ∨ a + vs.length ≤ b) : Memory.read (Memory.writeBytes m a vs) b = Memory.read m b := by
  induction vs generalizing m a with
  | nil => rfl
  | cons v vs ih =>
    simp only [List.length_cons] at h
    rw [Memory.writeBytes, ih _ _ (by omega), Memory.read_write_other _ _ _ _ (by omega)]

theorem Memory.read_writeBytes_inside (m : Memory) (a i : Nat) (vs : List Byte) (h : i < vs.length) :
    Memory.read (Memory.writeBytes m a vs) (a + i) = some vs[i] := by
  induction vs generalizing m a i with
  | nil => simp at h
  | cons v vs ih =>
    rw [Memory.writeBytes]
    cases i with
    | zero =>
      rw [Memory.read_writeBytes_outside _ _ _ _ (by omega), Nat.add_zero, Memory.read_write_same]; rfl
    | succ i =>
      have := ih (Memory.write m a v) (a + 1) i (by simpa using h)
      rw [show a + (i + 1) = a + 1 + i by omega, this]; rfl

/-- `gather` answers exactly when every value is there, and then in order. -/
theorem gather_eq_some {f : Nat → Option Byte} {n : Nat} {bs : Vector Byte n} :
    gather f n = some bs ↔ ∀ j (h : j < n), f j = some bs[j] := by
  induction n with
  | zero => simp [gather]
  | succ n ih =>
    obtain ⟨cs, b, rfl⟩ : ∃ (cs : Vector Byte n) (b : Byte), bs = cs.push b :=
      ⟨bs.pop, bs.back, by simp⟩
    simp only [gather]
    constructor
    · intro h
      split at h
      · rename_i cs' b' hcs hb
        simp only [Option.some.injEq, Vector.push_eq_push] at h
        obtain ⟨rfl, rfl⟩ := h
        intro j hj
        rcases Nat.lt_succ_iff_lt_or_eq.mp hj with hj' | rfl
        · rw [Vector.getElem_push_lt hj']; exact ih.mp hcs j hj'
        · simpa using hb
      · simp at h
    · intro h
      have hcs : gather f n = some cs := ih.mpr fun j hj => by
        rw [h j (by omega), Vector.getElem_push_lt hj]
      have hb : f n = some b := by rw [h n (by omega)]; simp
      simp [hcs, hb]

end Sys2Proof.Machine
end

