-- ==== Sys2Proof/Laws/State.lean ====
section
/-! SUPPORT. The updates of the state, field by field, so that no later proof unfolds a record update. -/

namespace Sys2Proof.Machine

/-! ### Replacing the block -/

@[simp] theorem setBlk_blk (s : State) (b : Block) : (s.setBlk b).blk = b := rfl
@[simp] theorem setBlk_pins (s : State) (b : Block) : (s.setBlk b).pins = s.pins := rfl
@[simp] theorem setBlk_env (s : State) (b : Block) : (s.setBlk b).env = s.env := rfl

/-! ### The reset block -/

@[simp] theorem reset_ph : Block.reset.ph = .idle := rfl
@[simp] theorem reset_rq : Block.reset.rq = none := rfl
@[simp] theorem reset_q : Block.reset.q = none := rfl
@[simp] theorem reset_msg : Block.reset.msg = [] := rfl
@[simp] theorem reset_len : Block.reset.len = none := rfl
@[simp] theorem reset_off : Block.reset.off = none := rfl
@[simp] theorem reset_win : Block.reset.win = none := rfl
@[simp] theorem reset_bin : Block.reset.bin = none := rfl
@[simp] theorem reset_otp : Block.reset.otp = none := rfl
@[simp] theorem reset_rs : Block.reset.rs = none := rfl

/-! ### Ending an Execute: `respond` writes `RS` and `PH` and nothing else (R31, R136) -/

@[simp] theorem respond_ph (w : RspWord) (b : Block) : (respond w b).ph = .done := rfl
@[simp] theorem respond_rs (w : RspWord) (b : Block) : (respond w b).rs = some w := rfl
@[simp] theorem respond_rq (w : RspWord) (b : Block) : (respond w b).rq = b.rq := rfl
@[simp] theorem respond_q (w : RspWord) (b : Block) : (respond w b).q = b.q := rfl
@[simp] theorem respond_msg (w : RspWord) (b : Block) : (respond w b).msg = b.msg := rfl
@[simp] theorem respond_len (w : RspWord) (b : Block) : (respond w b).len = b.len := rfl
@[simp] theorem respond_off (w : RspWord) (b : Block) : (respond w b).off = b.off := rfl
@[simp] theorem respond_win (w : RspWord) (b : Block) : (respond w b).win = b.win := rfl
@[simp] theorem respond_bin (w : RspWord) (b : Block) : (respond w b).bin = b.bin := rfl
@[simp] theorem respond_otp (w : RspWord) (b : Block) : (respond w b).otp = b.otp := rfl

theorem raise_eq (echo : Byte) (c : Cause) (b : Block) :
    raise echo c b = respond (rspWord echo c.code noPayload) b := rfl

theorem respondOk_eq (echo : Byte) (p : Vector Byte 8) (b : Block) :
    respondOk echo p b = respond (rspWord echo statusOk p) b := rfl

/-! ### Reset and the host's pins -/

@[simp] theorem resetEvent_blk (s : State) : (resetEvent s).blk = Block.reset := rfl
@[simp] theorem resetEvent_pins (s : State) : (resetEvent s).pins = s.pins := rfl
@[simp] theorem resetEvent_script (s : State) : (resetEvent s).env.script = s.env.script := rfl
@[simp] theorem resetEvent_accepted (s : State) : (resetEvent s).env.accepted = [] := rfl
@[simp] theorem resetEvent_delivered (s : State) : (resetEvent s).env.delivered = [] := rfl

theorem drive_reset {p : Pins} (h : p.reset = true) (s : State) :
    drive p s = resetEvent { s with pins := p } := by simp [drive, h]

theorem drive_noReset {p : Pins} (h : p.reset = false) (s : State) :
    drive p s = { s with pins := p } := by simp [drive, h]

@[simp] theorem drive_pins (p : Pins) (s : State) : (drive p s).pins = p := by
  cases h : p.reset
  · rw [drive_noReset h]
  · rw [drive_reset h]; rfl

/-! ### Accept -/

@[simp] theorem acceptWord_ph (w : ReqWord) (s : State) : (acceptWord w s).blk.ph = .busy := rfl
@[simp] theorem acceptWord_rq (w : ReqWord) (s : State) : (acceptWord w s).blk.rq = some w := rfl
@[simp] theorem acceptWord_pins (w : ReqWord) (s : State) : (acceptWord w s).pins = s.pins := rfl
@[simp] theorem acceptWord_script (w : ReqWord) (s : State) :
    (acceptWord w s).env.script = s.env.script := rfl
@[simp] theorem acceptWord_accepted (w : ReqWord) (s : State) :
    (acceptWord w s).env.accepted = s.env.accepted ++ [w] := rfl
@[simp] theorem acceptWord_delivered (w : ReqWord) (s : State) :
    (acceptWord w s).env.delivered = s.env.delivered := rfl

/-! ### The state before the Execute of a given word -/

@[simp] theorem loadRequest_ph (w : ReqWord) (s : State) : (loadRequest w s).blk.ph = .busy := rfl
@[simp] theorem loadRequest_rq (w : ReqWord) (s : State) : (loadRequest w s).blk.rq = some w := rfl
@[simp] theorem loadRequest_reset (w : ReqWord) (s : State) : (loadRequest w s).pins.reset = false := rfl
@[simp] theorem loadRequest_script (w : ReqWord) (s : State) : (loadRequest w s).env.script = [] := rfl

end Sys2Proof.Machine
end

