-- ==== Sys2Proof/Laws/Ops.lean ====
section
/-! SUPPORT. One lemma for each shared operation: what it answers, and when it is a fault of the model. -/

namespace Sys2Proof.Machine

@[simp] theorem need_some (l : Latch) (v : α) : need l (some v) = .ok v := rfl
@[simp] theorem need_none (l : Latch) : (need l none : Except Fault α) = .error (.latchEmpty l) := rfl

theorem runBlock_ok {body : Block → Except Fault Block} {s : State} {b : Block} (h : body s.blk = .ok b) :
    runBlock body s = .next (s.setBlk b) := by simp [runBlock, h]

/-- An Execute that goes on changed the block and nothing else. -/
theorem runBlock_next {body : Block → Except Fault Block} {s t : State} (h : runBlock body s = .next t) :
    ∃ b, body s.blk = .ok b ∧ t = s.setBlk b := by
  unfold runBlock at h
  split at h
  · exact ⟨_, ‹_›, by simpa using h.symm⟩
  · simp at h

/-- `MemRead` in bounds is the bytes of `DIG`, lowest address first (R44). -/
theorem memRead_ok {dig : Vector Byte 64} {b : Block} {addr n L : Nat} (hL : b.len = some L) (hb : addr + n ≤ L)
    (h64 : L ≤ 64) {bs : Vector Byte n} (h : ∀ j (hj : j < n), bs[j] = dig[addr + j]) :
    memRead dig b addr n = .ok bs := by
  have : gather (fun j => digByte dig (addr + j)) n = some bs := by
    rw [gather_eq_some]
    intro j hj
    simp only [digByte, h j hj]
    exact Vector.getElem?_eq_getElem (by omega)
  simp [memRead, hL, hb, this]

/-- `MemRead` out of bounds is a fault of the model (R44). -/
theorem memRead_outside {dig : Vector Byte 64} {b : Block} {addr n L : Nat} (hL : b.len = some L)
    (hb : L < addr + n) : memRead dig b addr n = .error (.digBounds addr n) := by
  simp [memRead, hL, Nat.not_le.mpr hb]

theorem memWrite_ok {b : Block} {addr : Nat} {v : List Byte} (h : addr + v.length ≤ 8) :
    memWrite b addr v = .ok { b with msg := Memory.writeBytes b.msg addr v } := by
  simp [memWrite, Config.counterBytes, h]

theorem memWrite_outside {b : Block} {addr : Nat} {v : List Byte} (h : 8 < addr + v.length) :
    memWrite b addr v = .error (.msgBounds addr v.length) := by
  simp [memWrite, Config.counterBytes, Nat.not_le.mpr h]

/-- The response builder reads back the eight bytes the operation wrote (R49). -/
theorem readMsg_writeBytes {b : Block} {m : Memory} (v : Vector Byte 8)
    (h : b.msg = Memory.writeBytes m 0 v.toList) : readMsg b = .ok v := by
  have : gather (Memory.read b.msg) 8 = some v := by
    rw [gather_eq_some, h]
    intro j hj
    have := Memory.read_writeBytes_inside m 0 j v.toList (by simpa using hj)
    rw [Nat.zero_add] at this
    simpa using this
  simp [readMsg, this]

theorem deliver_ok {s : State} {w : RspWord} (h : s.blk.rs = some w) : deliver s =
    .next { s with blk := Block.reset, env := { s.env with delivered := s.env.delivered ++ [w] } } := by
  simp [deliver, h]

/-! ### The bytes of a response word (R70) -/

theorem rspWord_toList (echo status : Byte) (p : Vector Byte 8) :
    (rspWord echo status p).toList = echo :: status :: p.toList := by
  simp only [rspWord, Vector.toList_append]; rfl

@[simp] theorem rspWord_echo (echo status : Byte) (p : Vector Byte 8) : (rspWord echo status p)[0] = echo := by
  have := rspWord_toList echo status p
  have h0 : (rspWord echo status p)[0] = (rspWord echo status p).toList[0]'(by simp) := by simp
  simp [h0, this]

@[simp] theorem rspWord_status (echo status : Byte) (p : Vector Byte 8) : (rspWord echo status p)[1] = status := by
  have := rspWord_toList echo status p
  have h0 : (rspWord echo status p)[1] = (rspWord echo status p).toList[1]'(by simp) := by simp
  simp [h0, this]

theorem rspWord_payload (echo status : Byte) (p : Vector Byte 8) (k : Nat) (h : k < 8) :
    (rspWord echo status p)[2 + k] = p[k] := by
  have h0 : (rspWord echo status p)[2 + k] = (rspWord echo status p).toList[2 + k]'(by simp; omega) := by
    rw [Vector.getElem_toList]
  rw [h0]
  simp only [rspWord_toList, Nat.add_comm 2 k, List.getElem_cons_succ, Vector.getElem_toList]

end Sys2Proof.Machine
end

