-- ==== Sys2Proof/Laws/Divider.lean ====
section
/-! SUPPORT. What `TCTR` does, on every operand (spec/40_counter_divider.md R81 to R84). -/

namespace Sys2Proof.Machine

theorem ctr_toNat (t p : BitVec 64) : (ctr t p).toNat = t.toNat / p.toNat := by
  have := Nat.div_le_self t.toNat p.toNat
  have := t.isLt
  rw [ctr, BitVec.toNat_ofNat, Nat.mod_eq_of_lt (by omega)]

theorem enc8_getElem (q : BitVec 64) (i : Nat) (h : i < 8) : (enc8 q)[i] = q.extractLsb' (56 - 8 * i) 8 := by
  have hb : (enc8 q)[i] = (be 8 q.toNat)[i]'(by simpa [be_length] using h) := rfl
  rw [hb]
  interval_cases i <;> simp [be, BitVec.extractLsb']

/-- On an error only `RS` and `PH` change (R136). -/
theorem tctrBody_zero (t : BitVec 64) (b : Block) : tctrBody t 0 b = .ok (raise opTctr .invalidPeriod b) := rfl

/-- On success `Q`, `MSG[0..7]`, `RS` and `PH` change (R81). -/
theorem tctrBody_ok (t : BitVec 64) {p : BitVec 64} (hp : p ≠ 0) (b : Block) : tctrBody t p b =
    .ok (respondOk opTctr (enc8 (ctr t p))
      { b with q := some (ctr t p), msg := Memory.writeBytes b.msg 0 (enc8 (ctr t p)).toList }) := by
  simp only [tctrBody, hp, if_false, serialiseStage, divideStage, need_some, bind, Except.bind]
  rw [memWrite_ok (by simp)]
  simp only [respondMsgStage, bind, Except.bind]
  rw [readMsg_writeBytes (m := b.msg) (enc8 (ctr t p)) rfl]

end Sys2Proof.Machine
end

