-- ==== Sys2Proof/Laws/Truncation.lean ====
section
/-! SUPPORT. What `DTRM` does, on every operand (spec/41_truncation_modulo.md R91 to R99). -/

namespace Sys2Proof.Machine

theorem windowOf_getElem (dig : Vector Byte 64) (off : BitVec 4) (j : Nat) (h : j < 4) :
    (windowOf dig off)[j] = dig[off.toNat + j] := by
  interval_cases j <;> rfl

/-! ### The stages: none of them faults, both reads are in bounds (R47) -/

theorem offsetStage_ok (a : Alg) (dig : Vector Byte 64) {b : Block} (hl : b.len = some a.dlen) :
    offsetStage dig b = .ok { b with off := some (digestOffset a dig) } := by
  have hd := a.dlen_bounds
  simp only [offsetStage, hl, need_some, bind, Except.bind]
  rw [memRead_ok (bs := #v[lastByte a dig]) hl (by omega) hd.2 (by intro j hj; interval_cases j; rfl)]
  rfl

theorem windowStage_ok (a : Alg) (dig : Vector Byte 64) {b : Block} {o : BitVec 4} (hl : b.len = some a.dlen)
    (ho : b.off = some o) : windowStage dig b = .ok { b with win := some (windowOf dig o) } := by
  have hd := a.dlen_bounds
  have := o.isLt
  simp only [windowStage, ho, need_some, bind, Except.bind]
  rw [memRead_ok hl (by omega) hd.2 (windowOf_getElem dig o)]

theorem assembleStage_ok {b : Block} {win : Vector Byte 4} (h : b.win = some win) :
    assembleStage b = .ok { b with bin := some (binOf win) } := by
  simp [assembleStage, h, bind, Except.bind]

theorem reduceStage_ok (n : BitVec 32) {b : Block} {bin : BitVec 31} (h : b.bin = some bin) :
    reduceStage n b = .ok { b with otp := some (otpOf bin n.toNat) } := by
  simp [reduceStage, h, bind, Except.bind]

theorem respondOtpStage_ok {b : Block} {otp : BitVec 31} (h : b.otp = some otp) :
    respondOtpStage b = .ok (respondOk opDtrm (otpPayload otp) b) := by
  simp [respondOtpStage, h, bind, Except.bind]

/-- The whole pipeline after the checks (R91). -/
theorem truncateBody_ok (a : Alg) (n : BitVec 32) (dig : Vector Byte 64) (b : Block) : truncateBody a n dig b =
    .ok (respondOk opDtrm (otpPayload (digestOtp a n.toNat dig))
      { b with
        len := some a.dlen
        off := some (digestOffset a dig)
        win := some (digestWindow a dig)
        bin := some (digestBin a dig)
        otp := some (digestOtp a n.toNat dig) }) := by
  simp only [truncateBody, bind, Except.bind]
  rw [offsetStage_ok a dig (b := lengthStage a b) rfl]
  simp only
  rw [windowStage_ok a dig rfl rfl]
  simp only
  rw [assembleStage_ok rfl]
  simp only
  rw [reduceStage_ok n rfl]
  simp only
  rw [respondOtpStage_ok rfl]
  rfl

theorem dtrmBody_zero (alg : Byte) (dig : Vector Byte 64) (b : Block) :
    dtrmBody alg 0 dig b = .ok (raise opDtrm .invalidOtpLength b) := rfl

theorem dtrmBody_unknown {alg : Byte} (ha : Alg.ofByte alg = none) {n : BitVec 32} (hn : n ≠ 0)
    (dig : Vector Byte 64) (b : Block) :
    dtrmBody alg n dig b = .ok (raise opDtrm .unsupportedAlgorithm b) := by
  simp only [dtrmBody, hn, if_false, ha]

theorem dtrmBody_known {alg : Byte} {a : Alg} (ha : Alg.ofByte alg = some a) {n : BitVec 32} (hn : n ≠ 0)
    (dig : Vector Byte 64) (b : Block) : dtrmBody alg n dig b = truncateBody a n dig b := by
  simp only [dtrmBody, hn, if_false, ha]

/-- R69: the recognised selectors are `0x00` to `0x03`. -/
theorem ofByte_eq_none {alg : Byte} : Alg.ofByte alg = none ↔ 3 < alg.toNat := by
  revert alg; decide

@[simp] theorem ofByte_code (a : Alg) : Alg.ofByte a.code = some a := by cases a <;> rfl

/-- `OFF` is the last byte modulo 16 (R93). -/
theorem offsetOf_toNat (last : Byte) : (offsetOf last).toNat = last.toNat % 16 := by
  revert last; decide

theorem otpPayload_toList (otp : BitVec 31) :
    (otpPayload otp).toList = be 4 otp.toNat ++ [0, 0, 0, 0] := by
  have : (otp.setWidth 32).toNat = otp.toNat := by simp [BitVec.toNat_setWidth]; omega
  simp only [otpPayload, Vector.toList_append, beVec_toList, this]; rfl

theorem payloadField_getElem (r : RspWord) (k : Nat) (h : k < 8) : (payloadField r)[k] = r[2 + k] :=
  Vector.getElem_extract ..

end Sys2Proof.Machine
end

