-- ==== Sys2Proof/Laws/Handshake.lean ====
section
/-! SUPPORT. What one step can do (spec/10_state.md R30 to R32; spec/70_reset_and_hazards.md R150). -/

namespace Sys2Proof.Machine

/-! ### The meanings, as state equations -/

theorem exec_tctr_zero (t : BitVec 64) (s : State) :
    exec (.tctr t 0) s = .next (s.setBlk (raise opTctr .invalidPeriod s.blk)) := rfl

theorem exec_tctr_ok (t : BitVec 64) {p : BitVec 64} (hp : p ≠ 0) (s : State) : exec (.tctr t p) s =
    .next (s.setBlk (respondOk opTctr (enc8 (ctr t p))
      { s.blk with q := some (ctr t p), msg := Memory.writeBytes s.blk.msg 0 (enc8 (ctr t p)).toList })) :=
  runBlock_ok (tctrBody_ok t hp s.blk)

theorem exec_dtrm_zero (alg : Byte) (dig : Vector Byte 64) (s : State) :
    exec (.dtrm alg 0 dig) s = .next (s.setBlk (raise opDtrm .invalidOtpLength s.blk)) := rfl

theorem exec_dtrm_unknown {alg : Byte} (ha : Alg.ofByte alg = none) {n : BitVec 32} (hn : n ≠ 0)
    (dig : Vector Byte 64) (s : State) :
    exec (.dtrm alg n dig) s = .next (s.setBlk (raise opDtrm .unsupportedAlgorithm s.blk)) :=
  runBlock_ok (dtrmBody_unknown ha hn dig s.blk)

theorem exec_dtrm_ok {alg : Byte} {a : Alg} (ha : Alg.ofByte alg = some a) {n : BitVec 32} (hn : n ≠ 0)
    (dig : Vector Byte 64) (s : State) : exec (.dtrm alg n dig) s =
    .next (s.setBlk (respondOk opDtrm (otpPayload (digestOtp a n.toNat dig))
      { s.blk with
        len := some a.dlen
        off := some (digestOffset a dig)
        win := some (digestWindow a dig)
        bin := some (digestBin a dig)
        otp := some (digestOtp a n.toNat dig) })) :=
  runBlock_ok ((dtrmBody_known ha hn dig s.blk).trans (truncateBody_ok a n dig s.blk))

/-- An Execute changes the block and nothing else (R31: "no port takes part"). -/
theorem exec_next {i : Instr} {s t : State} (h : exec i s = .next t) : t = s.setBlk t.blk := by
  have key : ∀ body : Block → Except Fault Block, runBlock body s = .next t → t = s.setBlk t.blk := by
    intro body hb
    obtain ⟨b, -, rfl⟩ := runBlock_next hb
    rfl
  cases i with
  | tctr _ _ => exact key _ h
  | dtrm _ _ _ => exact key _ h

/-! ### One event -/

theorem step_wait {s : State} (h : s.env.script = []) : step s = blockStep s := by
  simp [step, eventStep, nextMove, h]

theorem step_script {s : State} {m : HostMove} {rest : List HostMove} (h : s.env.script = m :: rest) :
    step s = (match m with
      | .drive p => .next (drive p { s with env := { s.env with script := rest } })
      | .wait => blockStep { s with env := { s.env with script := rest } }) := by
  simp only [step, eventStep, nextMove, h]
  cases m <;> rfl

/-- The block's step, one equation for each of its cases. -/
theorem blockStep_reset {s : State} (h : s.pins.reset = true) : blockStep s = .next (resetEvent s) := by
  simp [blockStep, h]

theorem blockStep_accept {s : State} (hr : s.pins.reset = false) (hp : s.blk.ph = .idle)
    (hv : s.pins.reqValid = true) : blockStep s = .next (accept s) := by simp [blockStep, hr, hp, hv]

theorem blockStep_idle {s : State} (hr : s.pins.reset = false) (hp : s.blk.ph = .idle)
    (hv : s.pins.reqValid = false) : blockStep s = .next s := by simp [blockStep, hr, hp, hv]

theorem blockStep_execute {s : State} (hr : s.pins.reset = false) (hp : s.blk.ph = .busy) {w : ReqWord}
    (hw : s.blk.rq = some w) : blockStep s = executeWord w s := by simp [blockStep, hr, hp, execute, hw]

theorem blockStep_deliver {s : State} (hr : s.pins.reset = false) (hp : s.blk.ph = .done)
    (hv : s.pins.rspReady = true) : blockStep s = deliver s := by simp [blockStep, hr, hp, hv]

theorem blockStep_done {s : State} (hr : s.pins.reset = false) (hp : s.blk.ph = .done)
    (hv : s.pins.rspReady = false) : blockStep s = .next s := by simp [blockStep, hr, hp, hv]

/-- Everything the block's own step can do when it goes on. -/
theorem blockStep_cases {s t : State} (h : blockStep s = .next t) :
    (s.pins.reset = true ∧ t = resetEvent s) ∨
    (s.pins.reset = false ∧ s.blk.ph = .idle ∧ s.pins.reqValid = true ∧ t = accept s) ∨
    (s.pins.reset = false ∧ s.blk.ph = .idle ∧ s.pins.reqValid = false ∧ t = s) ∨
    (s.pins.reset = false ∧ s.blk.ph = .busy ∧ ∃ w, s.blk.rq = some w ∧ executeWord w s = .next t) ∨
    (s.pins.reset = false ∧ s.blk.ph = .done ∧ s.pins.rspReady = true ∧ ∃ r, s.blk.rs = some r ∧
      t = { s with blk := Block.reset, env := { s.env with delivered := s.env.delivered ++ [r] } }) ∨
    (s.pins.reset = false ∧ s.blk.ph = .done ∧ s.pins.rspReady = false ∧ t = s) := by
  rcases hr : s.pins.reset with _ | _
  · rcases hp : s.blk.ph with _ | _ | _
    · rcases hv : s.pins.reqValid with _ | _
      · rw [blockStep_idle hr hp hv] at h; simp_all
      · rw [blockStep_accept hr hp hv] at h; simp_all
    · rcases hw : s.blk.rq with _ | w
      · simp [blockStep, hr, hp, execute, hw] at h
      · rw [blockStep_execute hr hp hw] at h; simp_all
    · rcases hv : s.pins.rspReady with _ | _
      · rw [blockStep_done hr hp hv] at h; simp_all
      · rw [blockStep_deliver hr hp hv] at h
        rcases hs : s.blk.rs with _ | r
        · simp [deliver, hs] at h
        · rw [deliver_ok hs] at h; simp_all
  · rw [blockStep_reset hr] at h; simp_all

/-- Everything one step can do when it goes on: the host sets its pins, or the block takes its step. -/
theorem step_cases {s t : State} (h : step s = .next t) :
    (∃ p rest, s.env.script = .drive p :: rest ∧
      t = drive p { s with env := { s.env with script := rest } }) ∨
    (∃ rest, s.env.script = .wait :: rest ∧
      blockStep { s with env := { s.env with script := rest } } = .next t) ∨
    (s.env.script = [] ∧ blockStep s = .next t) := by
  rcases hs : s.env.script with _ | ⟨m, rest⟩
  · rw [step_wait hs] at h; exact .inr (.inr ⟨rfl, h⟩)
  · rw [step_script hs] at h
    cases m with
    | drive p => exact .inl ⟨p, rest, rfl, by simpa using h.symm⟩
    | wait => exact .inr (.inl ⟨rest, rfl, h⟩)

end Sys2Proof.Machine
end

