-- ==== Sys2Proof/Laws/Operands.lean ====
section
/-! SUPPORT. The operand views of the request latch (spec/10_state.md R24 to R26). -/

namespace Sys2Proof.Machine

theorem viewWhen_some (opcode : Byte) (view : ReqWord → α) {b : Block} {w : ReqWord} (h : b.rq = some w) :
    viewWhen opcode view b = if w[0] = opcode then some (view w) else none := by
  rw [viewWhen, h]
  rfl

@[simp] theorem viewWhen_empty (opcode : Byte) (view : ReqWord → α) {b : Block} (h : b.rq = none) :
    viewWhen opcode view b = none := by
  simp only [viewWhen, h]

end Sys2Proof.Machine
end

