-- ==== Sys2Proof/Laws/PerInstr.lean ====
section
/-! SUPPORT. The per-instruction family `TableRow`: every operation's word selects the operation's own row of the
opcode table (spec/30_encoding.md R64). -/

namespace Sys2Proof

/-- Masking the byte above `k` bits gives that byte, in place. -/
theorem and_byte_mask (b r k : Nat) (hb : b < 2 ^ 8) (hr : r < 2 ^ k) :
    (b * 2 ^ k + r) &&& (255 * 2 ^ k) = b * 2 ^ k := by
  apply Nat.eq_of_testBit_eq
  intro i
  rw [Nat.testBit_and, mul_comm b, mul_comm 255, Nat.testBit_two_pow_mul_add _ hr, Nat.testBit_two_pow_mul,
    Nat.testBit_two_pow_mul, show (255 : Nat) = 2 ^ 8 - 1 from rfl, Nat.testBit_two_pow_sub_one]
  by_cases hi : i < k
  · simp [hi, Nat.not_le.mpr hi]
  · by_cases h8 : i - k < 8
    · simp [hi, h8, Nat.le_of_not_lt hi]
    · have : b.testBit (i - k) = false :=
        Nat.testBit_lt_two_pow (hb.trans_le (Nat.pow_le_pow_right (by norm_num) (by omega)))
      simp [hi, h8, this]

/-- R60: byte 0 is the most significant byte of the 560-bit number. -/
theorem wordNumber_eq (w : ReqWord) : ∃ r < 2 ^ 552, wordNumber w = w[0].toNat * 2 ^ 552 + r := by
  obtain ⟨b, bs, hw⟩ := List.exists_cons_of_ne_nil (l := w.toList) (by
    intro h; have := congrArg List.length h; simp at this)
  have hl : bs.length = 69 := by have := congrArg List.length hw; simp at this; omega
  have h0 : w[0] = b := by rw [← Vector.getElem_toList (by simp)]; simp [hw]
  have hlt := fromBe_lt bs
  have he : (256 : Nat) ^ 69 = 2 ^ 552 := by rw [show (256 : Nat) = 2 ^ 8 from rfl, ← pow_mul]
  rw [hl, he] at hlt
  exact ⟨fromBe bs, hlt, by rw [wordNumber, hw, fromBe, hl, he, h0]⟩

/-- A row whose mask covers byte 0 and whose pattern is an opcode byte selects by that byte (R64: "this is rule
R62's test on byte 0"). -/
theorem selects_iff {r : OpcodeRow} {c : Byte} (hm : r.mask = 255 * 2 ^ 552) (hp : r.pattern = c.toNat * 2 ^ 552)
    (w : ReqWord) : r.selects w = true ↔ w[0] = c := by
  obtain ⟨x, hx, hw⟩ := wordNumber_eq w
  rw [OpcodeRow.selects, beq_iff_eq, hw, hm, hp, and_byte_mask _ _ _ w[0].isLt hx,
    Nat.mul_left_inj (by positivity), BitVec.toNat_inj]

theorem rowTctr_selects (w : ReqWord) : rowTctr.selects w = true ↔ w[0] = opTctr :=
  selects_iff (by decide +kernel) (by decide +kernel) w

theorem rowDtrm_selects (w : ReqWord) : rowDtrm.selects w = true ↔ w[0] = opDtrm :=
  selects_iff (by decide +kernel) (by decide +kernel) w

namespace Laws.TableRow

/-- The word of `i` selects the row of `i`, and its byte 0 is the opcode of `i`. -/
def Statement (i : Instr) : Prop := i.row.selects (encode i) = true ∧ (encode i)[0] = i.opcode

theorem tctr (t p : BitVec 64) : Statement (.tctr t p) :=
  ⟨(rowTctr_selects _).mpr (encode_opcode _), encode_opcode _⟩

theorem dtrm (a : Byte) (n : BitVec 32) (d : Vector Byte 64) : Statement (.dtrm a n d) :=
  ⟨(rowDtrm_selects _).mpr (encode_opcode _), encode_opcode _⟩

end Laws.TableRow

end Sys2Proof
end

