-- ==== Sys2Proof/Laws/System.lean ====
section
/-! SUPPORT. The host's flow, one step at a time (spec/50_system_composition.md R111): the machine's answer to a
request decides what the flow does next. -/

namespace Sys2Proof.Machine

theorem totpOnBlock_hash (hmac : Hmac) (key : List Byte) (a : Alg) (t p : BitVec 64) (n : BitVec 32)
    {s u : State} {r : RspWord} {m : Vector Byte 8} (ht : transact (encode (.tctr t p)) s = some (r, u))
    (hr : readResponse r = some (.okTctr m)) :
    totpOnBlock hmac key a t p n s = hashAndTruncate hmac key a n m u := by
  unfold totpOnBlock
  rw [ht]
  simp only [hr]

theorem totpOnBlock_error (hmac : Hmac) (key : List Byte) (a : Alg) (t p : BitVec 64) (n : BitVec 32)
    {s u : State} {r : RspWord} {c : Cause} (ht : transact (encode (.tctr t p)) s = some (r, u))
    (hr : readResponse r = some (.err c)) :
    totpOnBlock hmac key a t p n s = some (.error (.block c), u) := by
  unfold totpOnBlock
  rw [ht]
  simp only [hr]

theorem hashAndTruncate_hmacError {hmac : Hmac} {key : List Byte} {a : Alg} (n : BitVec 32) {m : Vector Byte 8}
    (s : State) {e : HostError} (h : hmac a key m = .error e) :
    hashAndTruncate hmac key a n m s = some (.error e, s) := by
  simp only [hashAndTruncate, h]

theorem hashAndTruncate_ok {hmac : Hmac} {key : List Byte} {a : Alg} {n : BitVec 32} {m : Vector Byte 8}
    {s u : State} {d : Vector Byte a.dlen} {r : RspWord} {otp : BitVec 31} (h : hmac a key m = .ok d)
    (ht : transact (encode (.dtrm a.code n (digestOperand a d))) s = some (r, u))
    (hr : readResponse r = some (.okDtrm otp)) :
    hashAndTruncate hmac key a n m s = some (.ok otp, u) := by
  unfold hashAndTruncate
  rw [h]
  simp only
  rw [ht]
  simp only [hr]

theorem hashAndTruncate_blockError {hmac : Hmac} {key : List Byte} {a : Alg} {n : BitVec 32} {m : Vector Byte 8}
    {s u : State} {d : Vector Byte a.dlen} {r : RspWord} {c : Cause} (h : hmac a key m = .ok d)
    (ht : transact (encode (.dtrm a.code n (digestOperand a d))) s = some (r, u))
    (hr : readResponse r = some (.err c)) :
    hashAndTruncate hmac key a n m s = some (.error (.block c), u) := by
  unfold hashAndTruncate
  rw [h]
  simp only
  rw [ht]
  simp only [hr]

/-! ### The entry point once its three checks pass -/

/-- `enc8` of the quotient the entry point computes is the plain encoding: the quotient fits 64 bits. -/
theorem enc8_quotient (now : BitVec 64) (k : Nat) : enc8 (BitVec.ofNat 64 (now.toNat / k)) = beVec 8 (now.toNat / k) := by
  have h : now.toNat / k < 2 ^ 64 := lt_of_le_of_lt (Nat.div_le_self _ _) now.isLt
  rw [enc8, BitVec.toNat_ofNat, Nat.mod_eq_of_lt h]

theorem generateTotp_noSecret {dec : SecretDecoder} (hmac : Hmac) {secret : List Char} (a : Alg) {period : Int}
    (now : BitVec 64) {len : Int} (h1 : 1 ≤ len) (h2 : secret ≠ []) (h3 : 1 ≤ period) (hk : dec secret = none) :
    generateTotp dec hmac secret a period now len = .error .invalidSecret := by
  simp only [generateTotp, Int.not_lt.mpr h1, Int.not_lt.mpr h3, h2, if_false, hk]

/-- What a valid call does once the secret is decoded: the keyed hash decides. -/
theorem generateTotp_key {dec : SecretDecoder} (hmac : Hmac) {secret : List Char} (a : Alg) {period : Int}
    (now : BitVec 64) {len : Int} {key : List Byte} (h1 : 1 ≤ len) (h2 : secret ≠ []) (h3 : 1 ≤ period)
    (hk : dec secret = some key) :
    generateTotp dec hmac secret a period now len =
      match hmac a key (beVec 8 (now.toNat / period.toNat)) with
      | .error e => .error e
      | .ok d => .ok (formatOtp (digestOtp a len.toNat (digestOperand a d)).toNat len.toNat) := by
  rcases hd : hmac a key (beVec 8 (now.toNat / period.toNat)) with e | d <;>
    simp only [generateTotp, Int.not_lt.mpr h1, Int.not_lt.mpr h3, h2, if_false, hk, enc8_quotient, hd]

end Sys2Proof.Machine
end

