-- ==== Sys2Proof/Tests/Slice0.lean ====
section
/-! SUPPORT. Tests of the model on values of spec/95_test_vectors.md and spec/30_encoding.md, and for every statement
with hypotheses a concrete case that meets them. Expected values come from the spec's tables. -/

namespace Sys2Proof.Tests

open Sys2Proof.Machine

/-! ### Words and digests of the spec -/

/-- Vector T1. -/
def wordT1 : ReqWord := tableWord 560 0x01000000000000003B000000000000001E0000000000000000000000000000000000000000000000000000000000000000000000000000000000000000000000000000000000

/-- Vector T1 with the ignored bytes 17 to 69 all `0xA5`. -/
def wordT1Filled : ReqWord := tableWord 560 0x01000000000000003B000000000000001EA5A5A5A5A5A5A5A5A5A5A5A5A5A5A5A5A5A5A5A5A5A5A5A5A5A5A5A5A5A5A5A5A5A5A5A5A5A5A5A5A5A5A5A5A5A5A5A5A5A5A5A5A5

/-- Vector T8. -/
def wordT8 : ReqWord := tableWord 560 0x010123456789ABCDEF00000000000000010000000000000000000000000000000000000000000000000000000000000000000000000000000000000000000000000000000000

/-- Vector H0. -/
def wordH0 : ReqWord := tableWord 560 0x020000000006CC93CF18508D94934C64B65D8BA7667FB7CDE4B00000000000000000000000000000000000000000000000000000000000000000000000000000000000000000

/-- Vector F3: `N = 0` and an unrecognised selector. -/
def wordF3 : ReqWord := tableWord 560 0x020400000000CC93CF18508D94934C64B65D8BA7667FB7CDE4B00000000000000000000000000000000000000000000000000000000000000000000000000000000000000000

/-- Word 3 of program P3: an unrecognised selector. -/
def wordP3 : ReqWord := tableWord 560 0x020400000006CC93CF18508D94934C64B65D8BA7667FB7CDE4B00000000000000000000000000000000000000000000000000000000000000000000000000000000000000000

/-- Vector F10: opcode `7E`. -/
def wordF10 : ReqWord := tableWord 560 0x7E0000000006CC93CF18508D94934C64B65D8BA7667FB7CDE4B00000000000000000000000000000000000000000000000000000000000000000000000000000000000000000

/-- The pattern `PAT` of section 3.3. -/
def pat : Vector Byte 64 := beVec 64 0x303D4A5764717E8B98A5B2BFCCD9E6F3000D1AA034414E5B6875828F9CA9B65FD0DDEAF704111E2B3845525F6C798637A0ADBAC7D4E1EEFB0815222F3C4956C3

/-- The state after one step, if there is one. -/
def after (s : State) : Option State := Outcome.state? (step s)

/-- The state with the word accepted and nothing else. -/
def busy (w : ReqWord) : State := loadRequest w State.reset

/-! ### Decoding: words written out field by field (R65, R66) -/

theorem test_decode_tctr_bytes : decodeBytes
    ([0x01] ++ [0, 0, 0, 0, 0, 0, 0, 59] ++ [0x80, 0, 0, 0, 0, 0, 0, 30] ++ List.replicate 53 0xA5) =
      .ok (.tctr 59 0x800000000000001E) := by decide

theorem test_decode_dtrm_bytes : decodeBytes
    ([0x02] ++ [0x03] ++ [0xFF, 0, 0, 8] ++ List.replicate 63 0xAA ++ [0x55]) =
      .ok (.dtrm 0x03 0xFF000008 (beVec 64 (0xAA * ((256 ^ 64 - 1) / 255) - 0x55))) := by decide

theorem test_decode_T8 : decode wordT8 = .instr (.tctr 0x0123456789ABCDEF 1) := by decide

theorem test_decode_illegal_00 : decode (tableWord 560 0) = .illegal 0x00 := by decide

theorem test_decode_illegal_7E : decode wordF10 = .illegal 0x7E := by decide

theorem test_decode_short_word : decodeBytes [0x01] = .error (.badLength 1) := by decide

theorem test_encode_T1 : encode (.tctr 59 30) = wordT1 := by decide

theorem test_encode_H0 : encode (.dtrm 0x00 6 (padDigest (be 20 0xCC93CF18508D94934C64B65D8BA7667FB7CDE4B0))) = wordH0 := by
  decide

/-! ### Ill-formed operands, one for each check -/

theorem smoke_period_zero : (Instr.tctr 59 0).operandsValid = false := by decide
theorem smoke_length_zero : (Instr.dtrm 0x00 0 pat).operandsValid = false := by decide
theorem smoke_selector_four : (Instr.dtrm 0x04 6 pat).operandsValid = false := by decide
theorem smoke_valid : (Instr.tctr 59 1).operandsValid = true ∧ (Instr.dtrm 0x03 1 pat).operandsValid = true := by decide
theorem smoke_line_time : (Line.tctr (2 ^ 64) 1).wellFormed = false := by decide
theorem smoke_line_period : (Line.tctr 1 (2 ^ 64)).wellFormed = false := by decide
theorem smoke_line_selector : (Line.dtrm (.raw 256) none []).wellFormed = false := by decide
theorem smoke_line_length : (Line.dtrm (.raw 4) (some (2 ^ 32)) []).wellFormed = false := by decide
theorem smoke_line_short_digest : (Line.dtrm (.name .sha1) none (be 19 0)).wellFormed = false := by decide
theorem smoke_line_long_digest : (Line.dtrm (.raw 0) none (be 65 0)).wellFormed = false := by decide
theorem smoke_line_counter : (Line.enc8 (2 ^ 64)).wellFormed = false := by decide
theorem smoke_line_word : (Line.word (be 69 0)).wellFormed = false := by decide

/-- Lines outside the layout R77 prints: an operand without its `=`, a second blank after the mnemonic. -/
theorem smoke_text : readLine "DTRM alg=#4, len=1, digest".toList = none ∧
    readLine "TCTR  time=59, period=30".toList = none := by decide

/-! ### The operations, one step each (vectors T8, T12, H0, V2) -/

theorem test_tctr_T8 : (after (busy wordT8)).map (fun t => (t.blk.q, t.blk.rs.map Vector.toList)) =
    some (some 0x0123456789ABCDEF, some [0x01, 0x00, 0x01, 0x23, 0x45, 0x67, 0x89, 0xAB, 0xCD, 0xEF]) := by decide

theorem test_tctr_T12 : (after (busy (encode (.tctr 0xFFFFFFFFFFFFFFFF 2)))).map (fun t => (t.blk.q, t.blk.otp)) =
    some (some 0x7FFFFFFFFFFFFFFF, none) := by decide

theorem test_dtrm_H0 : (after (busy wordH0)).map (fun t => (t.blk.bin, t.blk.otp, t.blk.rs.map Vector.toList)) =
    some (some 0x4C93CF18, some 755224, some [0x02, 0x00, 0x00, 0x0B, 0x86, 0x18, 0, 0, 0, 0]) := by decide

theorem test_dtrm_V2 : (after (busy (encode (.dtrm 0x01 6 pat)))).map (fun t => (t.blk.len, t.blk.off, t.blk.otp)) =
    some (some 32, some 15, some 383194) := by decide

/-- Vector F3: both operands wrong, the length is reported, no result latch is written. -/
theorem test_priority_F3 : (after (busy wordF3)).map (fun t => (t.blk.len, t.blk.rs.map Vector.toList)) =
    some (none, some [0x02, 0x01, 0, 0, 0, 0, 0, 0, 0, 0]) := by decide

/-- A selector byte no one uses and a large length (vector M13's `N`): no large power is formed. -/
theorem test_large_length : (after (busy (encode (.dtrm 0x01 0xFFFFFFFF pat)))).map (fun t => t.blk.otp) =
    some (some 1929383194) := by decide

theorem test_format : formatOtp 7081804 8 = "07081804".toList := by decide

/-- The placed word runs first after reset. -/
theorem test_placed_word : decodeTableWord 560 0x01000000000000003B000000000000001E0000000000000000000000000000000000000000000000000000000000000000000000000000000000000000000000000000000000 = some (.tctr 59 30) ∧
    (after (State.reset.withFetchWord 560 0x01000000000000003B000000000000001E0000000000000000000000000000000000000000000000000000000000000000000000000000000000000000000000000000000000)).map
      (fun t => t.blk.q) = some (some 1) := by decide

/-! ### Witnesses: cases that meet the hypotheses of the statements -/

theorem witness_DecodeReadsTheFields : wordT1[0] = 0x01 ∧ wordH0[0] = 0x02 ∧ wordF10[0] ≠ 0x01 ∧ wordF10[0] ≠ 0x02 := by
  decide

theorem witness_DecodeAfterEncode : (Instr.tctr 59 30).wellFormed = true ∧ (Instr.dtrm 0xFF 0 pat).wellFormed = true := by
  decide

theorem witness_EncodeAfterDecode : decode wordT1Filled = .instr (.tctr 59 30) ∧
    decode wordF3 = .instr (.dtrm 0x04 0 (padDigest (be 20 0xCC93CF18508D94934C64B65D8BA7667FB7CDE4B0))) := by decide

theorem witness_BigEndianRoundTrip : 0xFFFF < 256 ^ 2 ∧ 1 < 2 := by decide

theorem witness_TctrCountsPeriods : (1 : BitVec 64) ≠ 0 ∧ (0xFFFFFFFFFFFFFFFF : BitVec 64) ≠ 0 := by decide

theorem witness_TctrFrame : (∃ u, exec (.tctr 59 30) State.reset = .next u) ∧
    ∃ u, exec (.tctr 59 0) State.reset = .next u := ⟨⟨_, rfl⟩, ⟨_, rfl⟩⟩

theorem witness_CounterContract : (30 : BitVec 64) ≠ 0 ∧ (59 : BitVec 64) ≤ 60 ∧
    (59 : BitVec 64).toNat + 1 = (1 + 1) * (30 : BitVec 64).toNat ∧ (1 + 1) * (30 : BitVec 64).toNat < 2 ^ 64 := by decide

theorem witness_CounterRange : (1 : BitVec 64) ≠ 0 := by decide

theorem witness_DtrmTruncatesAndReduces : (1 : BitVec 32) ≠ 0 ∧ (0x00 : Byte).toNat ≤ 3 ∧ (0x03 : Byte).toNat ≤ 3 := by
  decide

theorem witness_DtrmChecksInOrder : (1 : BitVec 32) ≠ 0 ∧ 3 < (0x04 : Byte).toNat ∧ 3 < (0xFF : Byte).toNat := by decide

theorem witness_DtrmFrame : (∃ u, exec (.dtrm 0x00 6 pat) State.reset = .next u) ∧
    (∃ u, exec (.dtrm 0x00 0 pat) State.reset = .next u) ∧ (∃ u, exec (.dtrm 0x04 6 pat) State.reset = .next u) ∧
    3 < (0x04 : Byte).toNat := ⟨⟨_, rfl⟩, ⟨_, rfl⟩, ⟨_, rfl⟩, by decide⟩

theorem witness_LargeLengthIsIdentity : 10 ≤ (10 : BitVec 32).toNat ∧ (0x01 : Byte).toNat ≤ 3 := by decide

theorem witness_ResultRanges : (9 : BitVec 32) ≠ 0 ∧ (0x02 : Byte).toNat ≤ 3 := by decide

theorem witness_WindowInsideTheDigest : (6 : BitVec 32) ≠ 0 ∧ (0x00 : Byte).toNat ≤ 3 := by decide

/-- Vectors H0 and I1, with the last byte's high nibble changed as in I2 and the padding as in I4. -/
def digestH0 : Vector Byte 64 := padDigest (be 20 0xCC93CF18508D94934C64B65D8BA7667FB7CDE4B0)
def digestChanged : Vector Byte 64 := padDigest (be 64 (0x4C93CF18508D94934C64B65D8BA7667FB7CDE440 * 256 ^ 44 + 0xEE))

theorem witness_ResultDependsOnTheWindowOnly : Alg.ofByte 0x00 = some .sha1 ∧ digestH0 ≠ digestChanged ∧
    (lastByte .sha1 digestH0).toNat % 16 = (lastByte .sha1 digestChanged).toNat % 16 ∧
    (digestWindow .sha1 digestH0)[0].toNat % 128 = (digestWindow .sha1 digestChanged)[0].toNat % 128 ∧
    ∀ j (h : j < 4), 0 < j → (digestWindow .sha1 digestH0)[j] = (digestWindow .sha1 digestChanged)[j] := by decide

theorem witness_OperandViewsReadTheRequest : (busy wordT1).blk.rq = some wordT1 ∧ wordT1[0] = 0x01 ∧
    (busy wordH0).blk.rq = some wordH0 ∧ wordH0[0] = 0x02 ∧ Block.reset.rq = none := by decide

theorem witness_MemReadIsBounded : ({ Block.reset with len := some 20 } : Block).len = some 20 ∧ 20 ≤ 64 ∧
    16 + 4 ≤ 20 ∧ 20 < 17 + 4 := by decide

theorem witness_MemWriteIsBounded : 0 + (be 8 1).length ≤ 8 ∧ 8 < 1 + (be 8 1).length := by decide

theorem witness_StepKeepsMemoryCanonical : Memory.wf (busy wordT1).blk.msg ∧ Memory.inSpace 8 (busy wordT1).blk.msg ∧
    ∃ t, step (busy wordT1) = .next t := ⟨by decide, by decide, ⟨_, rfl⟩⟩

theorem witness_CanonicalMemoryIsItsReads : Memory.wf [(0, 1), (7, 0xFF)] ∧
    ∀ a, Memory.read [(0, 1), (7, 0xFF)] a = Memory.read [(0, 1), (7, 0xFF)] a := ⟨by decide, fun _ => rfl⟩

theorem witness_IllegalWordIsAnswered : wordF10[0] ≠ 0x01 ∧ wordF10[0] ≠ 0x02 := by decide

theorem witness_ResponseWordShape : ((busy wordF3).responseTo wordF3).map (fun r => r[1] ≠ 0x00) = some True ∧
    wordH0[0] = 0x02 ∧ ((busy wordH0).responseTo wordH0).map (fun r => r[1]) = some 0x00 :=
  ⟨by simp only [Option.map_eq_some_iff]; exact ⟨_, rfl, by decide⟩, by decide, by decide⟩

theorem witness_ErrorsWriteNoResult : (after (busy wordP3)).bind (fun t => t.blk.rs.map (fun r => r[1])) = some 0x04 := by
  decide

theorem witness_StepRunsTheDecodedOperation : (busy wordT1).pins.reset = false ∧ (busy wordT1).blk.ph = .busy ∧
    (busy wordT1).blk.rq = some wordT1 ∧ decode wordT1 = .instr (.tctr 59 30) ∧ (busy wordT1).env.script = [] ∧
    ((busy wordT1).plan [.wait]).env.script = [.wait] := by decide

theorem witness_PlacedWordRunsNext : decodeTableWord 560 0x02000000000000000000000000000000000000000000000000000000000000000000000000000000000000000000000000000000000000000000000000000000000000000000 =
    some (.dtrm 0 0 (Vector.replicate 64 0)) := by decide

/-- A machine in `IDLE` to which a host presents a word. -/
def presented : State := { State.reset with pins := .presenting wordT1 }

/-- A machine in `DONE` with the host ready, respectively not ready. -/
def answered (ready : Bool) : State :=
  { (busy wordT1).setBlk (executed wordT1) with pins := { Pins.quiet with rspReady := ready } }

theorem witness_AcceptSamplesTheRequest : presented.env.script = [] ∧ presented.pins.reset = false ∧
    presented.blk.ph = .idle ∧ presented.pins.reqValid = true ∧ State.reset.pins.reqValid = false ∧
    (busy wordT1).blk.ph ≠ .idle ∧ (busy wordT1).env.script = [] ∧ (∃ t, step (busy wordT1) = .next t) :=
  ⟨rfl, rfl, rfl, rfl, rfl, by decide, rfl, ⟨_, rfl⟩⟩

theorem witness_DeliverClearsTheBlock : (answered true).env.script = [] ∧ (answered true).pins.reset = false ∧
    (answered true).blk.ph = .done ∧ (answered true).blk.rs = some (resp wordT1) ∧
    (answered true).pins.rspReady = true ∧ (answered false).pins.rspReady = false := by decide

/-- The pins of a host that resets the block. -/
def resetting : Pins := { Pins.quiet with reset := true }

theorem witness_deliver_under_reset : ({ answered true with pins := resetting } : State).blk.ph = .done ∧
    ({ answered true with pins := resetting } : State).blk.rs = some (resp wordT1) ∧ resetting.reset = true := by decide

theorem witness_ResetFromEveryState : ((busy wordT1).plan [.drive resetting]).env.script = .drive resetting :: [] ∧
    resetting.reset = true ∧ ({ State.reset with pins := resetting } : State).env.script = [] ∧
    (({ State.reset with pins := resetting } : State).plan [.drive .quiet]).env.script = .drive .quiet :: [] ∧
    Pins.quiet.reset = false := by decide

theorem witness_ResetValues : (busy wordT1).setBlk Block.reset ≠ State.reset ∧
    ((busy wordT1).setBlk Block.reset).blk = State.reset.blk := by decide

/-- The coherent states of each phase. -/
theorem witness_coherent : State.reset.Coherent ∧ (busy wordT1).Coherent ∧ (answered true).Coherent :=
  ⟨⟨rfl, fun _ => rfl⟩, ⟨⟨wordT1, rfl⟩, fun h => by cases h⟩, ⟨⟨wordT1, rfl⟩, fun h => by cases h⟩⟩

theorem witness_StepKeepsCoherent : (busy wordT1).Coherent ∧ ∃ t, step (busy wordT1) = .next t :=
  ⟨witness_coherent.2.1, ⟨_, rfl⟩⟩

theorem witness_CoherentMachineNeverStops : (answered false).Coherent :=
  ⟨⟨wordT1, rfl⟩, fun h => by cases h⟩

theorem witness_ResponsePortShowsTheResponse : (answered true).Coherent ∧ (answered true).rspValid = true ∧
    State.reset.Coherent ∧ State.reset.rspValid = false :=
  ⟨witness_coherent.2.2, rfl, witness_coherent.1, rfl⟩

theorem witness_IgnoredBytesDoNotMatter : wordT1 ≠ wordT1Filled ∧ wordT1[0] = 0x01 ∧
    (∀ k (h : k < 17), wordT1[k] = wordT1Filled[k]) := by decide

/-- Vector I4's padding bytes: `wordH0` with `0xEE` after the digest. -/
theorem witness_IgnoredPadding : wordH0[0] = 0x02 ∧ Alg.ofByte wordH0[1] = some .sha1 ∧
    (∀ k (h : k < 26), wordH0[k] = (encode (.dtrm 0 6 (padDigest (digestH0.toList.take 20 ++ [0xEE]))))[k]) := by
  decide

theorem witness_IgnoredDigest : wordF3[0] = 0x02 ∧ 3 < wordF3[1].toNat ∧ fromBe (byteRange wordF3.toList 2 5) = 0 ∧
    (∀ k (h : k < 6), wordF3[k] = (encode (.dtrm 4 0 pat))[k]) := by decide

theorem witness_StepKeepsObservation : presented.Coherent ∧ presented.Faithful ∧ ∃ t, step presented = .next t :=
  ⟨⟨rfl, fun h => by cases h⟩, rfl, ⟨_, rfl⟩⟩

theorem witness_ExecuteHappens : (busy wordT1).blk = acceptedBlock wordT1 ∧ (busy wordT1).pins.reset = false ∧
    noReset ((busy wordT1).plan [.drive .taking, .wait]).env.script := by
  refine ⟨rfl, rfl, fun p hp => ?_⟩
  have : p = .taking := by simpa [State.plan, busy, loadRequest, acceptWord] using hp
  rw [this]; rfl

theorem witness_SessionGetsTheResponse : State.reset.blk = Block.reset := rfl

theorem witness_AbandonedOperationIsNotAnswered : (busy wordT1).Coherent ∧ (busy wordT1).blk.rq = some wordT1 ∧
    (answered false).Coherent ∧ (answered false).blk.rq = some wordT1 ∧ resetting.reset = true :=
  ⟨witness_coherent.2.1, rfl, witness_CoherentMachineNeverStops, rfl, rfl⟩

theorem witness_AssembledLineDecodes : (59 : Nat) < 2 ^ 64 ∧ 2 ^ 64 - 1 < 2 ^ 64 ∧
    (Line.dtrm (.name .sha1) none (be 20 1)).wellFormed = true ∧
    (Line.dtrm (.raw 255) (some 0) (be 64 1)).wellFormed = true ∧ (be 70 1).length = 70 := by decide

theorem witness_Enc8AnswersTheCounter : (9 : Nat) < 2 ^ 64 := by decide

/-- A keyed hash and a decoder for the witnesses; no statement fixes either. -/
def zeroHmac : Hmac := fun a _ _ => .ok (Vector.replicate a.dlen 0)
def anyKey : SecretDecoder := fun _ => some [0]

theorem witness_FlowComputesTotp : (30 : BitVec 64) ≠ 0 ∧ (6 : BitVec 32) ≠ 0 ∧ State.reset.blk = Block.reset := by decide

theorem witness_FlowStopsOnInvalidPeriod : State.reset.blk = Block.reset := rfl

theorem witness_FormattedCodeIsFixedWidth : 1 ≤ 1 ∧ 9 < 10 ^ 1 ∧ 0 < 10 ^ 6 := by decide

/-- A decoder that rejects every string and a keyed hash that rejects every key. -/
def noKey : SecretDecoder := fun _ => none
def rejectingHmac : Hmac := fun _ _ _ => .error .invalidKey

/-- The clauses that reject, each at the boundary: length 0 and 1, period 0 and 1, the empty secret, a secret no decoder
takes, a key no hash takes. -/
theorem witness_EntryPointValidates : (0 : Int) < 1 ∧ (1 : Int) ≤ 1 ∧ ([] : List Char) = [] ∧ ['A'] ≠ [] ∧
    noKey ['1'] = none ∧ ['1'] ≠ [] ∧ anyKey ['A'] = some [0] ∧
    rejectingHmac .sha1 [0] (beVec 8 ((59 : BitVec 64).toNat / (1 : Int).toNat)) = .error .invalidKey :=
  ⟨by decide, by decide, rfl, by decide, rfl, by decide, rfl, rfl⟩

/-- The clause that answers, at length 1 and period 1, and a period that fits the block. -/
theorem witness_EntryPointAnswers : (1 : Int) ≤ 1 ∧ ['A'] ≠ [] ∧ anyKey ['A'] = some [0] ∧
    zeroHmac .sha1 [0] (beVec 8 ((59 : BitVec 64).toNat / (1 : Int).toNat)) = .ok (Vector.replicate 20 0) ∧
    (1 : BitVec 64).toNat = (1 : Int).toNat := ⟨by decide, by decide, rfl, rfl, by decide⟩

theorem witness_FlowStopsOnInvalidOtpLength : (30 : BitVec 64) ≠ 0 ∧ State.reset.blk = Block.reset ∧
    zeroHmac .sha1 [0] (beVec 8 ((59 : BitVec 64).toNat / (30 : BitVec 64).toNat)) = .ok (Vector.replicate 20 0) ∧
    rejectingHmac .sha1 [0] (beVec 8 ((59 : BitVec 64).toNat / (30 : BitVec 64).toNat)) = .error .invalidKey :=
  ⟨by decide, rfl, rfl, rfl⟩

theorem witness_SameWindowSameCode : (58 : BitVec 64).toNat / (30 : Int).toNat = (59 : BitVec 64).toNat / (30 : Int).toNat := by
  decide

end Sys2Proof.Tests
end

section
/-! The operand views of `RQ` and the reset table (spec/10_state.md R25, R26, R35). -/

namespace Sys2Proof.Machine

/-! ### A view under its own opcode, under the other one, and of an empty `RQ` -/

theorem viewWhen_same {opcode : Byte} (view : ReqWord → α) {b : Block} {w : ReqWord} (hrq : b.rq = some w)
    (h : w[0] = opcode) : viewWhen opcode view b = some (view w) := by
  rw [viewWhen_some _ _ hrq, if_pos h]

theorem viewWhen_other {opcode : Byte} (view : ReqWord → α) {b : Block} {w : ReqWord} (hrq : b.rq = some w)
    (h : w[0] ≠ opcode) : viewWhen opcode view b = none := by
  rw [viewWhen_some _ _ hrq, if_neg h]

/-- The views of `TCTR` are the fields of its word; those of `DTRM` hold no value (R25). -/
theorem views_tctr {b : Block} {w : ReqWord} (hrq : b.rq = some w) (h : w[0] = opTctr) :
    b.viewT = some (timeField w) ∧ b.viewP = some (periodField w) ∧
    b.viewAlg = none ∧ b.viewN = none ∧ b.dig = none := by
  have hne : w[0] ≠ opDtrm := by rw [h]; decide
  exact ⟨viewWhen_same _ hrq h, viewWhen_same _ hrq h,
    viewWhen_other _ hrq hne, viewWhen_other _ hrq hne, viewWhen_other _ hrq hne⟩

/-- The views of `DTRM` are the fields of its word; those of `TCTR` hold no value (R26). -/
theorem views_dtrm {b : Block} {w : ReqWord} (hrq : b.rq = some w) (h : w[0] = opDtrm) :
    b.viewAlg = some (algField w) ∧ b.viewN = some (otpLenField w) ∧ b.dig = some (digestField w) ∧
    b.viewT = none ∧ b.viewP = none := by
  have hne : w[0] ≠ opTctr := by rw [h]; decide
  exact ⟨viewWhen_same _ hrq h, viewWhen_same _ hrq h, viewWhen_same _ hrq h,
    viewWhen_other _ hrq hne, viewWhen_other _ hrq hne⟩

/-- While `RQ` holds no value, no view of it does (R24, R29). -/
theorem views_empty {b : Block} (hrq : b.rq = none) :
    b.opc = none ∧ b.viewT = none ∧ b.viewP = none ∧ b.viewAlg = none ∧ b.viewN = none ∧ b.dig = none :=
  ⟨Option.map_eq_none_iff.mpr hrq, viewWhen_empty _ _ hrq, viewWhen_empty _ _ hrq, viewWhen_empty _ _ hrq,
    viewWhen_empty _ _ hrq, viewWhen_empty _ _ hrq⟩

/-- Settles O22: under its own opcode each view is a field of the word, and a field is `from_be` of its bytes. -/
theorem operandViewsReadTheRequest : Obligations.OperandViewsReadTheRequest := by
  intro b
  refine ⟨fun w hrq h => ?tctr, fun w hrq h => ?dtrm, views_empty⟩
  case tctr =>
    obtain ⟨hT, hP, hothers⟩ := views_tctr hrq h
    exact ⟨_, _, hT, hP, timeField_toNat w, periodField_toNat w, hothers⟩
  case dtrm =>
    obtain ⟨hAlg, hN, hDig, hothers⟩ := views_dtrm hrq h
    exact ⟨_, _, hAlg, hN, hDig, otpLenField_toNat w, digestField_getElem w, hothers⟩

/-! ### The ports of an idle block -/

/-- An idle block shows no response (R23, R34). -/
theorem rspValid_idle {s : State} (h : s.blk.ph = .idle) : s.rspValid = false := by
  rw [State.rspValid, h]; rfl

/-- An idle block is ready for a request unless `reset` is high (R23, R34). -/
theorem reqReady_idle {s : State} (h : s.blk.ph = .idle) : s.reqReady = !s.pins.reset := by
  rw [State.reqReady, h]; rfl

/-- Settles O37: the latches by the table of R35, the views because `RQ` is empty, the ports because the block is
idle. -/
theorem resetValues : Obligations.ResetValues := by
  obtain ⟨hOpc, hT, hP, hAlg, hN, hDig⟩ := views_empty reset_rq
  have hports : ∀ s : State, s.blk = State.reset.blk → s.rspValid = false ∧ s.reqReady = !s.pins.reset := by
    intro s hs
    have hidle : s.blk.ph = .idle := by rw [hs]; exact reset_ph
    exact ⟨rspValid_idle hidle, reqReady_idle hidle⟩
  exact ⟨reset_ph, reset_rq, hOpc, hT, hP, hAlg, hN, hDig, reset_q, Memory.read_nil, reset_len, reset_off,
    reset_win, reset_bin, reset_otp, reset_rs, hports⟩

end Sys2Proof.Machine
end

section
/-! `MemRead` and its bounds (spec/20_memory.md R44). -/

namespace Sys2Proof.Machine

/-- The `n` bytes of `DIG` from `addr` on, lowest address first (R44). -/
def digBytes (dig : Vector Byte 64) (addr n : Nat) (h : addr + n ≤ 64) : Vector Byte n :=
  Vector.ofFn fun j => dig[addr + j.val]

@[simp] theorem digBytes_getElem {dig : Vector Byte 64} {addr n : Nat} (h : addr + n ≤ 64) (j : Nat) (hj : j < n) :
    (digBytes dig addr n h)[j] = dig[addr + j] := by
  simp [digBytes]

/-- Settles O23: in bounds the answer is `digBytes`, whose byte `j` is `DIG[addr + j]`; out of bounds `MemRead` is
the fault. -/
theorem memReadIsBounded : Obligations.MemReadIsBounded := by
  intro dig b addr n len hlen h64
  refine ⟨fun hin => ?inside, memRead_outside hlen⟩
  case inside =>
    have hdig : addr + n ≤ 64 := hin.trans h64
    refine ⟨digBytes dig addr n hdig, memRead_ok hlen hin h64 (digBytes_getElem hdig), fun j hj => ?_⟩
    rw [digBytes_getElem, Vector.getElem?_eq_getElem (by omega)]

end Sys2Proof.Machine
end

section
/-! The three results of decode (spec/30_encoding.md R62). -/

namespace Sys2Proof

/-- Settles O1: byte 0 selects the case, and a field of the decoded operation is `from_be` of its bytes. -/
theorem decodeReadsTheFields : Obligations.DecodeReadsTheFields := by
  intro w
  refine ⟨fun h => ?tctr, fun h => ?dtrm, decode_illegal⟩
  case tctr => exact ⟨_, _, decode_tctr h, timeField_toNat w, periodField_toNat w⟩
  case dtrm => exact ⟨_, _, decode_dtrm h, otpLenField_toNat w, digestField_getElem w⟩

/-- An operation that a word decodes to has the word's byte 0 as its opcode (R62, R64). -/
theorem decode_instr_opcode {w : ReqWord} {i : Instr} (h : decode w = .instr i) : i.opcode = w[0] := by
  by_cases hT : w[0] = opTctr
  · rw [decode_tctr hT] at h
    cases h
    exact hT.symm
  · by_cases hD : w[0] = opDtrm
    · rw [decode_dtrm hD] at h
      cases h
      exact hD.symm
    · rw [decode_illegal hT hD] at h
      cases h

/-- The byte that an illegal word reports is its byte 0 (R62). -/
theorem decode_illegal_opcode {w : ReqWord} {c : Byte} (h : decode w = .illegal c) : c = w[0] := by
  by_cases hT : w[0] = opTctr
  · rw [decode_tctr hT] at h
    cases h
  · by_cases hD : w[0] = opDtrm
    · rw [decode_dtrm hD] at h
      cases h
    · rw [decode_illegal hT hD] at h
      cases h
      rfl

end Sys2Proof
end

section
/-! The response of the Execute step is `resp` of the request word (spec/00_scope.md R12; spec/10_state.md R31). -/

namespace Sys2Proof.Machine

/-! ### The answer to an operation, one equation per form (R81, R91) -/

theorem answerInstr_tctr_zero (t : BitVec 64) : answerInstr (.tctr t 0) = .err .invalidPeriod := rfl

theorem answerInstr_tctr_ok (t : BitVec 64) {p : BitVec 64} (hp : p ≠ 0) :
    answerInstr (.tctr t p) = .okTctr (enc8 (ctr t p)) := if_neg hp

theorem answerInstr_dtrm_zero (alg : Byte) (dig : Vector Byte 64) :
    answerInstr (.dtrm alg 0 dig) = .err .invalidOtpLength := rfl

theorem answerInstr_dtrm_unknown {alg : Byte} (ha : Alg.ofByte alg = none) {n : BitVec 32} (hn : n ≠ 0)
    (dig : Vector Byte 64) : answerInstr (.dtrm alg n dig) = .err .unsupportedAlgorithm := by
  simp only [answerInstr, hn, if_false, ha]

theorem answerInstr_dtrm_ok {alg : Byte} {a : Alg} (ha : Alg.ofByte alg = some a) {n : BitVec 32} (hn : n ≠ 0)
    (dig : Vector Byte 64) : answerInstr (.dtrm alg n dig) = .okDtrm (digestOtp a n.toNat dig) := by
  simp only [answerInstr, hn, if_false, ha]

theorem answer_instr {w : ReqWord} {i : Instr} (h : decode w = .instr i) : answer w = answerInstr i := by
  simp only [answer, h]

theorem answer_illegal {w : ReqWord} {c : Byte} (h : decode w = .illegal c) :
    answer w = .err .illegalOperation := by
  simp only [answer, h]

/-! ### Execute computes the answer -/

/-- An operation always completes, its response laid out behind its opcode. -/
theorem exec_answers (i : Instr) (s : State) :
    ∃ u, exec i s = .next u ∧ u.blk.rs = some (encodeResponse i.opcode (answerInstr i)) := by
  cases i with
  | tctr t p =>
    by_cases hp : p = 0
    · subst hp
      exact ⟨_, exec_tctr_zero t s, rfl⟩
    · rw [answerInstr_tctr_ok t hp]
      exact ⟨_, exec_tctr_ok t hp s, rfl⟩
  | dtrm alg n dig =>
    by_cases hn : n = 0
    · subst hn
      exact ⟨_, exec_dtrm_zero alg dig s, rfl⟩
    · rcases ha : Alg.ofByte alg with _ | a
      · rw [answerInstr_dtrm_unknown ha hn]
        exact ⟨_, exec_dtrm_unknown ha hn dig s, rfl⟩
      · rw [answerInstr_dtrm_ok ha hn]
        exact ⟨_, exec_dtrm_ok ha hn dig s, rfl⟩

/-- Execute on a word always completes and puts `Resp(w)` into `RS` (R12, R31, R135). -/
theorem executeWord_answers (w : ReqWord) (s : State) :
    ∃ u, executeWord w s = .next u ∧ u.blk.rs = some (resp w) := by
  cases hd : decode w with
  | instr i =>
    have hresp : resp w = encodeResponse i.opcode (answerInstr i) := by
      rw [resp, answer_instr hd, decode_instr_opcode hd, opcodeField]
    simpa only [executeWord, hd, hresp] using exec_answers i s
  | illegal c =>
    have hresp : resp w = encodeResponse c (.err .illegalOperation) := by
      rw [resp, answer_illegal hd, decode_illegal_opcode hd, opcodeField]
    simp only [executeWord, hd, hresp]
    exact ⟨_, runBlock_ok rfl, rfl⟩

/-- The step after the Accept of a word is Execute on it. -/
theorem step_loadRequest (w : ReqWord) (s : State) : step (loadRequest w s) = executeWord w (loadRequest w s) :=
  (step_wait (loadRequest_script w s)).trans
    (blockStep_execute (loadRequest_reset w s) (loadRequest_ph w s) (loadRequest_rq w s))

/-- The machine's response to a word is `Resp(w)`, from every state. -/
theorem responseTo_eq_resp (s : State) (w : ReqWord) : s.responseTo w = some (resp w) := by
  obtain ⟨u, hu, hrs⟩ := executeWord_answers w (loadRequest w s)
  rw [State.responseTo, step_loadRequest, hu]
  exact hrs

end Sys2Proof.Machine
end

section
/-! The bytes of a response word: echo, status and payload (spec/30_encoding.md R70 to R73). -/

namespace Sys2Proof.Machine

/-! ### The payload of a successful `DTRM` (R72) -/

/-- Bit 7 of the first payload byte is clear: `OTP` has 31 bits. -/
theorem otpPayload_head_lt (otp : BitVec 31) : (otpPayload otp)[0].toNat < 128 := by
  have hhead : (otpPayload otp)[0] = BitVec.ofNat 8 (otp.toNat >>> 24) := by
    rw [getElem_toList]
    simp only [otpPayload_toList]
    rfl
  have hotp := otp.isLt
  rw [hhead, BitVec.toNat_ofNat, Nat.shiftRight_eq_div_pow]
  omega

theorem otpPayload_tail (otp : BitVec 31) (k : Nat) (h : k < 4) : (otpPayload otp)[4 + k] = 0 :=
  (Vector.getElem_append_right (by omega) (by omega)).trans (Vector.getElem_replicate ..)

/-! ### The bytes of a response, whatever it is -/

@[simp] theorem encodeResponse_echo (echo : Byte) (r : Response) : (encodeResponse echo r)[0] = echo := by
  cases r <;> exact rspWord_echo ..

theorem encodeResponse_err_status (echo : Byte) (c : Cause) : (encodeResponse echo (.err c))[1] = c.code :=
  rspWord_status ..

theorem Cause.code_ne_statusOk (c : Cause) : c.code ≠ statusOk := by cases c <;> decide

/-- R73: the status is that of a success or the code of a cause. -/
theorem encodeResponse_status_mem (echo : Byte) (r : Response) :
    (encodeResponse echo r)[1] ∈ ([0x00, 0x01, 0x03, 0x04, 0x06] : List Byte) := by
  cases r with
  | okTctr m => rw [encodeResponse, rspWord_status]; decide
  | okDtrm otp => rw [encodeResponse, rspWord_status]; decide
  | err c => rw [encodeResponse_err_status]; cases c <;> decide

/-- The status tells an error from a success (R70, R73). -/
theorem encodeResponse_status_ne_ok {echo : Byte} {r : Response} (h : (encodeResponse echo r)[1] ≠ statusOk) :
    ∃ c, r = .err c := by
  cases r with
  | okTctr m => exact absurd (rspWord_status ..) h
  | okDtrm otp => exact absurd (rspWord_status ..) h
  | err c => exact ⟨c, rfl⟩

/-- An error carries eight zero bytes (R72). -/
theorem encodeResponse_err_payload (echo : Byte) (c : Cause) (k : Nat) (h : k < 8) :
    (encodeResponse echo (.err c))[2 + k] = 0 :=
  (rspWord_payload echo c.code noPayload k h).trans (Vector.getElem_replicate ..)

/-- A `DTRM` success has bit 7 of `RS[2]` clear and bytes 6 to 9 zero (R72). -/
theorem encodeResponse_okDtrm_payload (echo : Byte) (otp : BitVec 31) :
    (encodeResponse echo (.okDtrm otp))[2].toNat < 128 ∧
    ∀ k (h : k < 4), (encodeResponse echo (.okDtrm otp))[6 + k] = 0 := by
  have hbyte := rspWord_payload echo statusOk (otpPayload otp)
  refine ⟨?head, fun k h => ?tail⟩
  case head =>
    have h2 : (encodeResponse echo (.okDtrm otp))[2] = (otpPayload otp)[0] := hbyte 0 (by decide)
    rw [h2]
    exact otpPayload_head_lt otp
  case tail =>
    have h6 := hbyte (4 + k) (by omega)
    simp only [← Nat.add_assoc] at h6
    exact h6.trans (otpPayload_tail otp k h)

/-! ### The answer to a `DTRM` word -/

/-- A `DTRM` word is answered with an error or a one-time password, never with a counter (R91). -/
theorem answer_dtrm {w : ReqWord} (h : w[0] = opDtrm) :
    (∃ c, answer w = .err c) ∨ ∃ otp, answer w = .okDtrm otp := by
  rw [answer_instr (decode_dtrm h)]
  by_cases hn : otpLenField w = 0
  · rw [hn]
    exact .inl ⟨_, answerInstr_dtrm_zero ..⟩
  · rcases ha : Alg.ofByte (algField w) with _ | a
    · exact .inl ⟨_, answerInstr_dtrm_unknown ha hn _⟩
    · exact .inr ⟨_, answerInstr_dtrm_ok ha hn _⟩

/-- A `DTRM` word with success status is answered with a one-time password. -/
theorem answer_dtrm_success {w : ReqWord} (h : w[0] = opDtrm) (hok : (resp w)[1] = statusOk) :
    ∃ otp, answer w = .okDtrm otp := by
  refine (answer_dtrm h).resolve_left fun ⟨c, hc⟩ => c.code_ne_statusOk ?_
  rw [← encodeResponse_err_status (opcodeField w) c, ← hc]
  exact hok

/-- Settles O28: the response is `Resp(w)`; an error status comes from a cause, and a `DTRM` success from a one-time
password, whose payloads are known. -/
theorem responseWordShape : Obligations.ResponseWordShape := by
  intro w s
  refine ⟨resp w, responseTo_eq_resp s w, encodeResponse_echo .., encodeResponse_status_mem ..,
    fun hne => ?error, fun hD hok => ?success⟩
  case error =>
    obtain ⟨c, hc⟩ := encodeResponse_status_ne_ok hne
    simp only [resp, hc]
    exact encodeResponse_err_payload _ c
  case success =>
    obtain ⟨otp, hotp⟩ := answer_dtrm_success hD hok
    simp only [resp, hotp]
    exact encodeResponse_okDtrm_payload _ otp

end Sys2Proof.Machine
end

section
/-! `TCTR`: the counter it stores and the period it rejects (spec/40_counter_divider.md R81 to R84). -/

namespace Sys2Proof.Machine

/-! ### The counter and its bytes -/

/-- R83: the quotient is the number of whole periods in the time. -/
theorem ctr_bounds (t : BitVec 64) {p : BitVec 64} (hp : p ≠ 0) :
    (ctr t p).toNat * p.toNat ≤ t.toNat ∧ t.toNat < ((ctr t p).toNat + 1) * p.toNat := by
  have hpos : 0 < p.toNat := Nat.pos_of_ne_zero fun h => hp (BitVec.eq_of_toNat_eq h)
  rw [ctr_toNat]
  exact ⟨Nat.div_mul_le_self .., (Nat.div_lt_iff_lt_mul hpos).mp (Nat.lt_succ_self _)⟩

/-- A vector written from address 0 on reads back at its own indices. -/
theorem Memory.read_writeBytes_vector (m : Memory) (v : Vector Byte n) (a : Nat) (h : a < n) :
    Memory.read (Memory.writeBytes m 0 v.toList) a = some v[a] := by
  have hread := Memory.read_writeBytes_inside m 0 a v.toList (by simpa using h)
  rwa [Nat.zero_add, Vector.getElem_toList] at hread

/-- Settles O7: the next state holds the quotient `ctr t p`, its bytes in `MSG` and the same bytes as payload. -/
theorem tctrCountsPeriods : Obligations.TctrCountsPeriods := by
  intro t p s hp
  obtain ⟨hle, hlt⟩ := ctr_bounds t hp
  refine ⟨_, ctr t p, _, exec_tctr_ok t hp s, rfl, rfl, rfl, hle, hlt, rspWord_echo .., rspWord_status ..,
    fun a h => ?bytes⟩
  case bytes =>
    have hmsg := Memory.read_writeBytes_vector s.blk.msg (enc8 (ctr t p)) a h
    exact ⟨hmsg.trans (congrArg some (enc8_getElem _ a h)),
      hmsg.trans (congrArg some (rspWord_payload _ _ _ a h).symm)⟩

/-! ### The rejected period -/

/-- The response word of an error, byte by byte (R72). -/
theorem rspWord_noPayload (echo status : Byte) :
    rspWord echo status noPayload = #v[echo, status, 0, 0, 0, 0, 0, 0, 0, 0] := rfl

/-- Settles O8: the error form of `TCTR` raises `InvalidPeriod`, whose response word is written out. -/
theorem tctrRejectsPeriodZero : Obligations.TctrRejectsPeriodZero := by
  intro t s
  rw [exec_tctr_zero, raise_eq, rspWord_noPayload]
  rfl

end Sys2Proof.Machine
end

section
/-! `DTRM`: the code it computes and its two checks (spec/41_truncation_modulo.md R92 to R98). -/

namespace Sys2Proof.Machine

/-! ### The recognised selectors (R69) -/

theorem ofByte_recognised {alg : Byte} (h : alg.toNat ≤ 3) : ∃ a, Alg.ofByte alg = some a :=
  Option.ne_none_iff_exists'.mp fun hnone => Nat.not_lt.mpr h (ofByte_eq_none.mp hnone)

/-- The selector byte that names an algorithm is that algorithm's code. -/
theorem code_of_ofByte {alg : Byte} {a : Alg} (h : Alg.ofByte alg = some a) : alg = a.code := by
  unfold Alg.ofByte at h
  split_ifs at h with h0 h1 h2 h3 <;> cases h
  · exact h0
  · exact h1
  · exact h2
  · exact h3

/-- The digest length of a recognised selector, read from the table of R69. -/
theorem dlen_of_ofByte {alg : Byte} {a : Alg} (h : Alg.ofByte alg = some a) :
    [20, 32, 48, 64][alg.toNat]? = some a.dlen := by
  rw [code_of_ofByte h]
  cases a <;> rfl

/-! ### The bytes that `DTRM` reads from the digest (R93, R94) -/

theorem lastByte_getElem? (a : Alg) (dig : Vector Byte 64) : dig[a.dlen - 1]? = some (lastByte a dig) :=
  Vector.getElem?_eq_getElem _

theorem digestOffset_toNat (a : Alg) (dig : Vector Byte 64) :
    (digestOffset a dig).toNat = (lastByte a dig).toNat % 16 := offsetOf_toNat _

theorem digestWindow_getElem? (a : Alg) (dig : Vector Byte 64) (j : Nat) (h : j < 4) :
    dig[(digestOffset a dig).toNat + j]? = some (digestWindow a dig)[j] := by
  rw [digestWindow, windowOf_getElem, Vector.getElem?_eq_getElem]

/-! ### Assembly and reduction (R95 to R98) -/

/-- Clearing the top bit of a byte leaves it modulo 128. -/
theorem byte_and_7F_toNat (b : Byte) : (b &&& 0x7F).toNat = b.toNat % 128 := by
  revert b; decide

/-- Bytes at disjoint places of an integer: their bitwise or is their sum. -/
theorem or_bytes_eq_sum {a b c d : Nat} (hb : b < 2 ^ 8) (hc : c < 2 ^ 8) (hd : d < 2 ^ 8) :
    a <<< 24 ||| b <<< 16 ||| c <<< 8 ||| d = a * 2 ^ 24 + b * 2 ^ 16 + c * 2 ^ 8 + d := by
  have hcd : c <<< 8 + d < 2 ^ 16 := by omega
  have hbcd : b <<< 16 + (c <<< 8 + d) < 2 ^ 24 := by omega
  rw [Nat.or_assoc, Nat.or_assoc, ← Nat.shiftLeft_add_eq_or_of_lt hd, ← Nat.shiftLeft_add_eq_or_of_lt hcd,
    ← Nat.shiftLeft_add_eq_or_of_lt hbcd]
  omega

/-- A byte shifted to its place in `BIN` keeps its value when it fits the 31 bits there. -/
theorem byte_shiftLeft_toNat (b : Byte) {k : Nat} (h : b.toNat <<< k < 2 ^ 31) :
    (b.setWidth 31 <<< k).toNat = b.toNat <<< k := by
  rw [BitVec.toNat_shiftLeft, BitVec.toNat_setWidth_of_le (by decide), Nat.mod_eq_of_lt h]

/-- R95: `BIN` is the window as a big-endian integer with the top bit cleared; no term exceeds its 31 bits. -/
theorem binOf_toNat (win : Vector Byte 4) : (binOf win).toNat =
    win[0].toNat % 128 * 2 ^ 24 + win[1].toNat * 2 ^ 16 + win[2].toNat * 2 ^ 8 + win[3].toNat := by
  have h0 : (win[0] &&& 0x7F).toNat < 2 ^ 7 := by rw [byte_and_7F_toNat]; omega
  have h1 := win[1].isLt
  have h2 := win[2].isLt
  have h3 := win[3].isLt
  rw [← or_bytes_eq_sum h1 h2 h3, ← byte_and_7F_toNat, binOf, BitVec.toNat_or, BitVec.toNat_or, BitVec.toNat_or,
    byte_shiftLeft_toNat _ (by omega), byte_shiftLeft_toNat _ (by omega), byte_shiftLeft_toNat _ (by omega),
    BitVec.toNat_setWidth_of_le (by decide)]

/-- R96, R98: the reduction is by the exact power; from ten digits on the power is above every `BIN`. -/
theorem otpOf_toNat (bin : BitVec 31) (n : Nat) : (otpOf bin n).toNat = bin.toNat % 10 ^ n := by
  have hbin := bin.isLt
  unfold otpOf
  split
  case isTrue hn =>
    have hpow : 10 ^ 10 ≤ 10 ^ n := Nat.pow_le_pow_right (by decide) hn
    rw [Nat.mod_eq_of_lt (by omega)]
  case isFalse =>
    have hle := Nat.mod_le bin.toNat (10 ^ n)
    rw [BitVec.toNat_ofNat, Nat.mod_eq_of_lt (by omega)]

/-! ### The response of a success (R72) -/

/-- Bytes 2 to 5 of the response are `OTP` in big-endian order: its 31 bits fit four bytes. -/
theorem encodeResponse_okDtrm_value (echo : Byte) (otp : BitVec 31) :
    fromBe (byteRange (encodeResponse echo (.okDtrm otp)).toList 2 5) = otp.toNat := by
  have hbytes : (encodeResponse echo (.okDtrm otp)).toList = [echo, statusOk] ++ be 4 otp.toNat ++ [0, 0, 0, 0] := by
    rw [encodeResponse, rspWord_toList, otpPayload_toList]; rfl
  have hotp := otp.isLt
  rw [hbytes, byteRange_middle [echo, statusOk] (be 4 otp.toNat) _ 2 5 rfl rfl, fromBe_be, Nat.mod_eq_of_lt (by omega)]

/-- Settles O13: the next state holds the digest functions `digestOffset` to `digestOtp` of a recognised algorithm, each
of which has its value by a lemma above. -/
theorem dtrmTruncatesAndReduces : Obligations.DtrmTruncatesAndReduces := by
  intro alg n dig s hn halg
  obtain ⟨a, ha⟩ := ofByte_recognised halg
  refine ⟨_, a.dlen, lastByte a dig, digestOffset a dig, digestWindow a dig, digestBin a dig, digestOtp a n.toNat dig,
    encodeResponse opDtrm (.okDtrm (digestOtp a n.toNat dig)), exec_dtrm_ok ha hn dig s,
    rfl, rfl, rfl, rfl, rfl, rfl, rfl, ?length, ?last, ?offset, ?window, ?bin, ?otp, ?echo, ?status, ?value, ?padding⟩
  case length => exact dlen_of_ofByte ha
  case last => exact lastByte_getElem? a dig
  case offset => exact digestOffset_toNat a dig
  case window => exact digestWindow_getElem? a dig
  case bin => exact binOf_toNat (digestWindow a dig)
  case otp => exact otpOf_toNat (digestBin a dig) n.toNat
  case echo => exact encodeResponse_echo ..
  case status => exact rspWord_status ..
  case value => exact encodeResponse_okDtrm_value ..
  case padding => exact (encodeResponse_okDtrm_payload opDtrm _).2

/-! ### The two checks (R92) -/

/-- Settles O14: each failed check raises its cause, whose response word is written out; an `ALG` above 3 is no
recognised selector. -/
theorem dtrmChecksInOrder : Obligations.DtrmChecksInOrder := by
  refine ⟨fun alg dig s => ?length, fun alg n dig s hn halg => ?selector⟩
  case length =>
    rw [exec_dtrm_zero, raise_eq, rspWord_noPayload]
    rfl
  case selector =>
    rw [exec_dtrm_unknown (ofByte_eq_none.mpr halg) hn, raise_eq, rspWord_noPayload]
    rfl

end Sys2Proof.Machine
end

section
/-! The formatted code (spec/50_system_composition.md R116). -/

namespace Sys2Proof.Machine

/-- A number below `10^len` has at most `len` digits, and the padding makes up the difference. -/
theorem formatOtp_length {otp len : Nat} (hlen : 1 ≤ len) (hotp : otp < 10 ^ len) : (formatOtp otp len).length = len := by
  have hdigits : (Nat.toDigits 10 otp).length ≤ len := (Nat.length_toDigits_le_iff (by decide) hlen).mpr hotp
  rw [formatOtp, List.length_append, List.length_replicate, Nat.sub_add_cancel hdigits]

theorem formatOtp_isDigit {otp len : Nat} {c : Char} (hc : c ∈ formatOtp otp len) : c.isDigit = true := by
  obtain hpad | hdigit := List.mem_append.mp hc
  · rw [List.eq_of_mem_replicate hpad]; rfl
  · exact Nat.isDigit_of_mem_toDigits (by decide) (by decide) hdigit

/-- The statement's decimal reader is the library's `Nat.ofDigitChars`, with the factors of
each step exchanged. -/
theorem foldl_decimal_eq_ofDigitChars (cs : List Char) :
    cs.foldl (fun acc c => acc * 10 + (c.toNat - '0'.toNat)) 0 = Nat.ofDigitChars 10 cs 0 := by
  rw [Nat.ofDigitChars_eq_foldl]
  simp only [Nat.mul_comm]

/-- Padding with `'0'` adds nothing to the value, at any length. -/
theorem formatOtp_ofDigitChars (otp len : Nat) : Nat.ofDigitChars 10 (formatOtp otp len) 0 = otp := by
  rw [formatOtp, Nat.ofDigitChars_append, Nat.ofDigitChars_replicate_zero, Nat.mul_zero, Nat.ofDigitChars_ten_toDigits]

/-- Settles O56: the padding fills the digits up to the length, and neither adds a character that is no digit nor
changes the value. -/
theorem formattedCodeIsFixedWidth : Obligations.FormattedCodeIsFixedWidth := by
  intro otp len hlen hotp
  refine ⟨formatOtp_length hlen hotp, fun c => formatOtp_isDigit, ?value⟩
  case value => rw [foldl_decimal_eq_ofDigitChars, formatOtp_ofDigitChars]

end Sys2Proof.Machine
end

section
/-! The illegal word: its whole next state (spec/60_exceptions.md R135). -/

namespace Sys2Proof.Machine

/-- After its Accept by an empty block the block holds the word and nothing else. -/
@[simp] theorem loadRequest_blk (w : ReqWord) (s : State) : (loadRequest w s).blk = acceptedBlock w := rfl

theorem execIllegal_eq (c : Byte) (s : State) :
    execIllegal c s = .next (s.setBlk (raise c .illegalOperation s.blk)) := runBlock_ok rfl

/-- Execute on a word whose byte 0 names no operation raises `IllegalOperation` and does nothing else (R135). -/
theorem executeWord_illegal {w : ReqWord} (hT : w[0] ≠ opTctr) (hD : w[0] ≠ opDtrm) (s : State) :
    executeWord w s = .next (s.setBlk (raise w[0] .illegalOperation s.blk)) := by
  rw [executeWord, decode_illegal hT hD]
  exact execIllegal_eq w[0] s

/-- Settles O27: the step is Execute on the accepted word, which raises `IllegalOperation`; the response word is
written out. -/
theorem illegalWordIsAnswered : Obligations.IllegalWordIsAnswered := by
  intro w s hT hD
  rw [step_loadRequest, executeWord_illegal hT hD, loadRequest_blk, raise_eq, rspWord_noPayload]
  rfl

end Sys2Proof.Machine
end

section
/-! Encode and decode undo each other, byte by byte (spec/00_scope.md R7; spec/30_encoding.md R64 to R68, R79). -/

namespace Sys2Proof

/-! ### Integers and their bytes (R7) -/

/-- A number that fits `n` bytes is read back from them. -/
theorem fromBe_be_of_lt {n v : Nat} (h : v < 256 ^ n) : fromBe (be n v) = v := by
  rw [fromBe_be, Nat.mod_eq_of_lt h]

/-- Byte `i` of `be n v` is the slice of `v` that R7 gives. -/
theorem be_getElem? {n i : Nat} (v : Nat) (h : i < n) :
    (be n v)[i]? = some (BitVec.ofNat 8 (v / 2 ^ (8 * (n - 1 - i)))) := by
  induction n generalizing i with
  | zero => omega
  | succ n ih =>
    cases i with
    | zero => rw [be, List.getElem?_cons_zero, Nat.shiftRight_eq_div_pow]; rfl
    | succ i =>
      rw [be, List.getElem?_cons_succ, ih (by omega)]
      congr 5
      omega

/-- Settles O6: the two inverse laws, and the slices by induction on the number of bytes. -/
theorem bigEndianRoundTrip : Obligations.BigEndianRoundTrip :=
  ⟨fun _ _ => fromBe_be_of_lt, be_fromBe, fun _ v _ => be_getElem? v⟩

/-! ### Decode after encode -/

theorem timeField_encode (t p : BitVec 64) : timeField (encode (.tctr t p)) = t := by
  apply BitVec.eq_of_toNat_eq
  rw [timeField_toNat, encode_tctr_toList, List.append_assoc _ (be 8 p.toNat),
    byteRange_middle [opTctr] (be 8 t.toNat) _ 1 8 rfl (by rw [be_length]), fromBe_be_of_lt t.isLt]

theorem periodField_encode (t p : BitVec 64) : periodField (encode (.tctr t p)) = p := by
  apply BitVec.eq_of_toNat_eq
  rw [periodField_toNat, encode_tctr_toList,
    byteRange_middle ([opTctr] ++ be 8 t.toNat) (be 8 p.toNat) _ 9 16 (by simp [be_length]) (by rw [be_length]),
    fromBe_be_of_lt p.isLt]

theorem algField_encode (a : Byte) (n : BitVec 32) (d : Vector Byte 64) : algField (encode (.dtrm a n d)) = a := by
  rw [algField, getElem_toList]
  simp only [encode_dtrm_toList]
  rfl

theorem otpLenField_encode (a : Byte) (n : BitVec 32) (d : Vector Byte 64) :
    otpLenField (encode (.dtrm a n d)) = n := by
  apply BitVec.eq_of_toNat_eq
  rw [otpLenField_toNat, encode_dtrm_toList,
    byteRange_middle [opDtrm, a] (be 4 n.toNat) _ 2 5 rfl (by rw [be_length]), fromBe_be_of_lt n.isLt]

theorem digestField_encode (a : Byte) (n : BitVec 32) (d : Vector Byte 64) :
    digestField (encode (.dtrm a n d)) = d := by
  ext k hk : 1
  have hfront : ([opDtrm, a] ++ be 4 n.toNat).length = 6 := by simp [be_length]
  rw [digestField_getElem, getElem_toList]
  simp only [encode_dtrm_toList]
  rw [List.getElem_append_right (by omega), Vector.getElem_toList]
  simp only [hfront, Nat.add_sub_cancel_left]

/-- R79: decode gives back the operands an operation was encoded from. -/
@[simp] theorem decode_encode (i : Instr) : decode (encode i) = .instr i := by
  cases i with
  | tctr t p => rw [decode_tctr (encode_opcode _), timeField_encode, periodField_encode]
  | dtrm a n d => rw [decode_dtrm (encode_opcode _), algField_encode, otpLenField_encode, digestField_encode]

/-- Settles O2: byte 0 of the encoded word selects the operation, and each field reads back its operand. -/
theorem decodeAfterEncode : Obligations.DecodeAfterEncode :=
  fun i _ => decode_encode i

/-! ### Encode after decode -/

/-- Two neighbouring byte ranges are one. -/
theorem byteRange_append (B : List Byte) {i j k : Nat} (hij : i ≤ j + 1) (hjk : j ≤ k) :
    byteRange B i j ++ byteRange B (j + 1) k = byteRange B i k := by
  have hdrop : B.drop (j + 1) = (B.drop i).drop (j + 1 - i) := by rw [List.drop_drop]; congr 1; omega
  have hlen : k + 1 - i = (j + 1 - i) + (k + 1 - (j + 1)) := by omega
  rw [byteRange, byteRange, byteRange, hdrop, hlen, List.take_add]

theorem byteRange_zero (B : List Byte) (j : Nat) : byteRange B 0 j = B.take (j + 1) := rfl

/-- The byte at `i` as a byte range. -/
theorem byteRange_single (w : Vector Byte m) {i : Nat} (h : i < m) : byteRange w.toList i i = [w[i]] := by
  rw [byteRange, Nat.add_sub_cancel_left, List.take_one_drop_eq_of_lt_length (by simpa), List.get_eq_getElem,
    Vector.getElem_toList]

theorem byteRange_all (w : Vector Byte (m + 1)) : byteRange w.toList 0 m = w.toList := by
  rw [byteRange_zero, List.take_of_length_le (by simp)]

theorem be_fromBe_of_length {B : List Byte} {n : Nat} (h : B.length = n) : be n (fromBe B) = B := h ▸ be_fromBe B

theorem be_fromBe_byteRange (w : ReqWord) {i j : Nat} (h : j < 70) :
    be (j + 1 - i) (fromBe (byteRange w.toList i j)) = byteRange w.toList i j :=
  be_fromBe_of_length (byteRange_length _ _ _ (by simpa))

/-- The word of the operands a `TCTR` word carries is its bytes 0 to 16, then zeros (R65, R67). -/
theorem encode_fields_tctr {w : ReqWord} (h : w[0] = opTctr) :
    (encode (.tctr (timeField w) (periodField w))).toList = byteRange w.toList 0 16 ++ List.replicate 53 0 := by
  rw [encode_tctr_toList, timeField_toNat, periodField_toNat, be_fromBe_byteRange w (i := 1) (j := 8) (by decide),
    be_fromBe_byteRange w (i := 9) (j := 16) (by decide), ← h, ← byteRange_single w (by decide),
    byteRange_append (i := 0) (j := 0) _ (by decide) (by decide),
    byteRange_append (i := 0) (j := 8) _ (by decide) (by decide)]

/-- The word of the operands a `DTRM` word carries is the word: each of its bytes is in a field (R66). -/
theorem encode_fields_dtrm {w : ReqWord} (h : w[0] = opDtrm) :
    encode (.dtrm (algField w) (otpLenField w) (digestField w)) = w := by
  have hdigest : (digestField w).toList = byteRange w.toList 6 69 := Vector.toList_extract ..
  have hhead : [opDtrm, algField w] = byteRange w.toList 0 0 ++ byteRange w.toList 1 1 := by
    rw [byteRange_single w (by decide), byteRange_single w (by decide), ← h]
    rfl
  apply Vector.toList_inj.mp
  rw [encode_dtrm_toList, otpLenField_toNat, be_fromBe_byteRange w (i := 2) (j := 5) (by decide), hdigest, hhead,
    byteRange_append (i := 0) (j := 0) _ (by decide) (by decide),
    byteRange_append (i := 0) (j := 1) _ (by decide) (by decide),
    byteRange_append (i := 0) (j := 5) _ (by decide) (by decide), byteRange_all]

/-- A word that decodes to a `TCTR` has its opcode, and the operands are its fields. -/
theorem decode_eq_tctr {w : ReqWord} {t p : BitVec 64} (h : decode w = .instr (.tctr t p)) :
    w[0] = opTctr ∧ t = timeField w ∧ p = periodField w := by
  have h0 : w[0] = opTctr := (decode_instr_opcode h).symm
  rw [decode_tctr h0] at h
  cases h
  exact ⟨h0, rfl, rfl⟩

/-- A word that decodes to a `DTRM` has its opcode, and the operands are its fields. -/
theorem decode_eq_dtrm {w : ReqWord} {a : Byte} {n : BitVec 32} {d : Vector Byte 64}
    (h : decode w = .instr (.dtrm a n d)) :
    w[0] = opDtrm ∧ a = algField w ∧ n = otpLenField w ∧ d = digestField w := by
  have h0 : w[0] = opDtrm := (decode_instr_opcode h).symm
  rw [decode_dtrm h0] at h
  cases h
  exact ⟨h0, rfl, rfl, rfl⟩

/-- Settles O3: the operands are the word's fields, and the encoded fields are the word's bytes again, but for the
bytes that no `TCTR` field covers. -/
theorem encodeAfterDecode : Obligations.EncodeAfterDecode := by
  intro w
  refine ⟨fun t p h k hk => ?tctr, fun a n d h => ?dtrm⟩
  case tctr =>
    obtain ⟨h0, rfl, rfl⟩ := decode_eq_tctr h
    have hlen : (byteRange w.toList 0 16).length = 17 := byteRange_length _ _ _ (by simp)
    rw [getElem_toList]
    simp only [encode_fields_tctr h0]
    split
    case isTrue hle =>
      rw [List.getElem_append_left (by omega)]
      simp only [byteRange_zero, List.getElem_take, Vector.getElem_toList]
    case isFalse hgt =>
      rw [List.getElem_append_right (by omega), List.getElem_replicate]
  case dtrm =>
    obtain ⟨h0, rfl, rfl, rfl⟩ := decode_eq_dtrm h
    exact encode_fields_dtrm h0

/-! ### The opcode table and the sample words -/

theorem decode_eq_tctr_iff (w : ReqWord) : (∃ t p, decode w = .instr (.tctr t p)) ↔ w[0] = opTctr :=
  ⟨fun ⟨_, _, h⟩ => (decode_eq_tctr h).1, fun h => ⟨_, _, decode_tctr h⟩⟩

theorem decode_eq_dtrm_iff (w : ReqWord) : (∃ a n d, decode w = .instr (.dtrm a n d)) ↔ w[0] = opDtrm :=
  ⟨fun ⟨_, _, _, h⟩ => (decode_eq_dtrm h).1, fun h => ⟨_, _, _, decode_dtrm h⟩⟩

theorem decode_eq_illegal_iff (w : ReqWord) : decode w = .illegal w[0] ↔ w[0] ≠ opTctr ∧ w[0] ≠ opDtrm := by
  refine ⟨fun h => ⟨fun hT => ?_, fun hD => ?_⟩, fun ⟨hT, hD⟩ => decode_illegal hT hD⟩
  · rw [decode_tctr hT] at h
    cases h
  · rw [decode_dtrm hD] at h
    cases h

/-- Settles O4: a row selects by byte 0, and so does decode. -/
theorem opcodeTableSelectsTheOperation : Obligations.OpcodeTableSelectsTheOperation := by
  intro w
  refine ⟨(rowTctr_selects w).trans (decode_eq_tctr_iff w).symm,
    (rowDtrm_selects w).trans (decode_eq_dtrm_iff w).symm, ?neither⟩
  case neither =>
    rw [decode_eq_illegal_iff, ← Bool.not_eq_true, ← Bool.not_eq_true, rowTctr_selects, rowDtrm_selects]

/-- The word with the number of `x` is `x`: 70 bytes lose nothing (R60). -/
theorem tableWord_wordNumber (x : ReqWord) : tableWord 560 (wordNumber x) = x := by
  apply Vector.toList_inj.mp
  rw [tableWord, if_neg (by decide), beVec_toList, wordNumber, be_fromBe_of_length Vector.length_toList]

/-- The number of an encoded operation's word decodes to the operation. -/
theorem decodeTableWord_encode {n : Nat} {i : Instr} (h : wordNumber (encode i) = n) :
    decodeTableWord 560 n = some i := by
  rw [decodeTableWord, ← h, tableWord_wordNumber, decode_encode]

theorem decodeTableWord_illegal {nbits n : Nat} (hT : (tableWord nbits n)[0] ≠ opTctr)
    (hD : (tableWord nbits n)[0] ≠ opDtrm) : decodeTableWord nbits n = none := by
  rw [decodeTableWord, decode_illegal hT hD]

/-- The 560-bit number of vector T1's word. -/
theorem wordNumber_T1 : wordNumber (encode (.tctr 59 30)) =
    0x01000000000000003B000000000000001E0000000000000000000000000000000000000000000000000000000000000000000000000000000000000000000000000000000000 := by
  decide

/-- The 560-bit number of vector T8's word. -/
theorem wordNumber_T8 : wordNumber (encode (.tctr 0x0123456789ABCDEF 1)) =
    0x010123456789ABCDEF00000000000000010000000000000000000000000000000000000000000000000000000000000000000000000000000000000000000000000000000000 := by
  decide

/-- The 560-bit number of vector H0's word. -/
theorem wordNumber_H0 :
    wordNumber (encode (.dtrm 0x00 6 (beVec 64 (0xCC93CF18508D94934C64B65D8BA7667FB7CDE4B0 * 256 ^ 44)))) =
    0x020000000006CC93CF18508D94934C64B65D8BA7667FB7CDE4B00000000000000000000000000000000000000000000000000000000000000000000000000000000000000000 := by
  decide

/-- Settles O5: the three legal words are those their operations encode to; byte 0 of the last names no operation. -/
theorem sampleWordsDecode : Obligations.SampleWordsDecode :=
  ⟨decodeTableWord_encode wordNumber_T1, decodeTableWord_encode wordNumber_T8, decodeTableWord_encode wordNumber_H0,
    decodeTableWord_illegal (by decide) (by decide)⟩

end Sys2Proof
end

section
/-! Execute from the state after the Accept: exactly the block `executed` of the word (spec/10_state.md R31, R33). -/

namespace Sys2Proof.Machine

/-! ### The forms of an operation -/

/-- The five forms of an operation, by its checks: `TCTR` with period 0 and with another (R82), `DTRM` with length 0,
with an unrecognised selector and with a recognised one (R92). -/
theorem instrForms {P : Instr → Prop} (tctrZero : ∀ t, P (.tctr t 0)) (tctrOk : ∀ t p, p ≠ 0 → P (.tctr t p))
    (dtrmZero : ∀ alg dig, P (.dtrm alg 0 dig))
    (dtrmUnknown : ∀ alg n dig, n ≠ 0 → Alg.ofByte alg = none → P (.dtrm alg n dig))
    (dtrmOk : ∀ alg n dig a, n ≠ 0 → Alg.ofByte alg = some a → P (.dtrm alg n dig)) (i : Instr) : P i := by
  cases i with
  | tctr t p =>
    by_cases hp : p = 0
    · exact hp ▸ tctrZero t
    · exact tctrOk t p hp
  | dtrm alg n dig =>
    by_cases hn : n = 0
    · exact hn ▸ dtrmZero alg dig
    · rcases ha : Alg.ofByte alg with _ | a
      · exact dtrmUnknown alg n dig hn ha
      · exact dtrmOk alg n dig a hn ha

/-! ### `Resp` of a word, by what it decodes to -/

theorem resp_instr {w : ReqWord} {i : Instr} (h : decode w = .instr i) :
    resp w = encodeResponse i.opcode (answerInstr i) := by
  rw [resp, answer_instr h, decode_instr_opcode h, opcodeField]

theorem resp_illegal {w : ReqWord} {c : Byte} (h : decode w = .illegal c) :
    resp w = encodeResponse c (.err .illegalOperation) := by
  rw [resp, answer_illegal h, decode_illegal_opcode h, opcodeField]

/-! ### The counter bytes written to an empty `MSG` -/

/-- A write above every listed address goes to the end. -/
theorem Memory.write_above {m : Memory} {a : Nat} (h : ∀ c ∈ m, c.1 < a) (v : Byte) :
    Memory.write m a v = m ++ [(a, v)] := by
  induction m with
  | nil => rfl
  | cons c m ih =>
    obtain ⟨hc, hm⟩ := List.forall_mem_cons.mp h
    rw [Memory.write, if_pos hc, ih hm, List.cons_append]

/-- Bytes written above every listed address go to the end, in address order. -/
theorem Memory.writeBytes_above {m : Memory} {a : Nat} (h : ∀ c ∈ m, c.1 < a) (vs : List Byte) :
    Memory.writeBytes m a vs = m ++ (List.range' a vs.length).zip vs := by
  induction vs generalizing m a with
  | nil => rw [Memory.writeBytes, List.zip_nil_right, List.append_nil]
  | cons v vs ih =>
    have habove : ∀ c ∈ m ++ [(a, v)], c.1 < a + 1 := by
      intro c hc
      rcases List.mem_append.mp hc with hc | hc
      · exact Nat.lt_succ_of_lt (h c hc)
      · rw [List.mem_singleton.mp hc]; exact Nat.lt_succ_self a
    rw [Memory.writeBytes, Memory.write_above h, ih habove, List.length_cons, List.range'_succ, List.zip_cons_cons,
      List.append_assoc, List.singleton_append]

/-- The eight counter bytes in an empty `MSG` (R49). -/
theorem writeBytes_enc8 (q : BitVec 64) : Memory.writeBytes [] 0 (enc8 q).toList = msgCells q := by
  rw [Memory.writeBytes_above (List.forall_mem_nil _), List.nil_append, Vector.length_toList, msgCells,
    List.range_eq_range']

/-! ### The block after an Execute, one equation per form (R27, R31) -/

theorem executedInstr_tctr_zero (w : ReqWord) (t : BitVec 64) :
    executedInstr w (.tctr t 0) = respond (resp w) (acceptedBlock w) := rfl

theorem executedInstr_tctr_ok (w : ReqWord) (t : BitVec 64) {p : BitVec 64} (hp : p ≠ 0) :
    executedInstr w (.tctr t p) =
      respond (resp w) { acceptedBlock w with q := some (ctr t p), msg := msgCells (ctr t p) } := if_neg hp

theorem executedInstr_dtrm_zero (w : ReqWord) (alg : Byte) (dig : Vector Byte 64) :
    executedInstr w (.dtrm alg 0 dig) = respond (resp w) (acceptedBlock w) := rfl

theorem executedInstr_dtrm_unknown (w : ReqWord) {alg : Byte} (ha : Alg.ofByte alg = none) {n : BitVec 32}
    (hn : n ≠ 0) (dig : Vector Byte 64) :
    executedInstr w (.dtrm alg n dig) = respond (resp w) (acceptedBlock w) := by
  simp only [executedInstr, hn, if_false, ha]
  rfl

theorem executedInstr_dtrm_ok (w : ReqWord) {alg : Byte} {a : Alg} (ha : Alg.ofByte alg = some a) {n : BitVec 32}
    (hn : n ≠ 0) (dig : Vector Byte 64) : executedInstr w (.dtrm alg n dig) =
      respond (resp w)
        { acceptedBlock w with
          len := some a.dlen
          off := some (digestOffset a dig)
          win := some (digestWindow a dig)
          bin := some (digestBin a dig)
          otp := some (digestOtp a n.toNat dig) } := by
  simp only [executedInstr, hn, if_false, ha]
  rfl

theorem executed_instr {w : ReqWord} {i : Instr} (h : decode w = .instr i) : executed w = executedInstr w i := by
  simp only [executed, h]

theorem executed_illegal {w : ReqWord} {c : Byte} (h : decode w = .illegal c) :
    executed w = respond (resp w) (acceptedBlock w) := by
  simp only [executed, h]
  rfl

/-- Whatever the form, Execute ends with `respond`: it keeps the word and answers it. -/
theorem executed_respond (w : ReqWord) : ∃ b, b.rq = some w ∧ executed w = respond (resp w) b := by
  cases hd : decode w with
  | illegal c => exact ⟨_, rfl, executed_illegal hd⟩
  | instr i =>
    rw [executed_instr hd]
    clear hd
    cases i using instrForms with
    | tctrZero t => exact ⟨_, rfl, executedInstr_tctr_zero w t⟩
    | tctrOk t p hp => exact ⟨_, rfl, executedInstr_tctr_ok w t hp⟩
    | dtrmZero alg dig => exact ⟨_, rfl, executedInstr_dtrm_zero w alg dig⟩
    | dtrmUnknown alg n dig hn ha => exact ⟨_, rfl, executedInstr_dtrm_unknown w ha hn dig⟩
    | dtrmOk alg n dig a hn ha => exact ⟨_, rfl, executedInstr_dtrm_ok w ha hn dig⟩

@[simp] theorem executed_ph (w : ReqWord) : (executed w).ph = .done := by
  obtain ⟨b, -, h⟩ := executed_respond w
  rw [h, respond_ph]

@[simp] theorem executed_rq (w : ReqWord) : (executed w).rq = some w := by
  obtain ⟨b, hb, h⟩ := executed_respond w
  rw [h, respond_rq, hb]

@[simp] theorem executed_rs (w : ReqWord) : (executed w).rs = some (resp w) := by
  obtain ⟨b, -, h⟩ := executed_respond w
  rw [h, respond_rs]

/-! ### Execute writes that block -/

theorem exec_accepted {w : ReqWord} {i : Instr} (hd : decode w = .instr i) {s : State}
    (hs : s.blk = acceptedBlock w) : exec i s = .next (s.setBlk (executedInstr w i)) := by
  have hresp := resp_instr hd
  clear hd
  cases i using instrForms with
  | tctrZero t => rw [exec_tctr_zero, executedInstr_tctr_zero, hs, hresp]; rfl
  | tctrOk t p hp =>
    rw [answerInstr_tctr_ok t hp] at hresp
    rw [exec_tctr_ok t hp, executedInstr_tctr_ok w t hp, hs, hresp, ← writeBytes_enc8]; rfl
  | dtrmZero alg dig => rw [exec_dtrm_zero, executedInstr_dtrm_zero, hs, hresp]; rfl
  | dtrmUnknown alg n dig hn ha =>
    rw [answerInstr_dtrm_unknown ha hn] at hresp
    rw [exec_dtrm_unknown ha hn, executedInstr_dtrm_unknown w ha hn, hs, hresp]; rfl
  | dtrmOk alg n dig a hn ha =>
    rw [answerInstr_dtrm_ok ha hn] at hresp
    rw [exec_dtrm_ok ha hn, executedInstr_dtrm_ok w ha hn, hs, hresp]; rfl

/-- Execute of a word that an empty block accepted: only the latches of `executed` are written. -/
theorem executeWord_accepted {w : ReqWord} {s : State} (hs : s.blk = acceptedBlock w) :
    executeWord w s = .next (s.setBlk (executed w)) := by
  cases hd : decode w with
  | instr i =>
    rw [executed_instr hd]
    simpa only [executeWord, hd] using exec_accepted hd hs
  | illegal c =>
    rw [executed_illegal hd, resp_illegal hd]
    simp only [executeWord, hd, execIllegal_eq, hs]
    rfl

/-- Settles O42: the step after the Accept is Execute of the word. -/
theorem executeIsAFunctionOfTheWord : Obligations.ExecuteIsAFunctionOfTheWord := fun w s =>
  ⟨(step_loadRequest w s).trans (executeWord_accepted (loadRequest_blk w s)), executed_rs w⟩

end Sys2Proof.Machine
end

section
/-! The two invariants of a run: the block is coherent and the observation is faithful (spec/00_scope.md R12;
spec/10_state.md R29 to R34). -/

namespace Sys2Proof.Machine

/-! ### Invariants of the step -/

/-- A property of states that is kept by every event: the host's choice of the script, the host's setting of the pins,
the block's own step. -/
structure StepInvariant (P : State → Prop) : Prop where
  script : ∀ s moves, P s → P { s with env := { s.env with script := moves } }
  drive : ∀ p s, P s → P (drive p s)
  block : ∀ s t, P s → blockStep s = .next t → P t

theorem StepInvariant.step {P : State → Prop} (hP : StepInvariant P) {s t : State} (hs : P s)
    (h : step s = .next t) : P t := by
  rcases step_cases h with ⟨p, rest, -, rfl⟩ | ⟨rest, -, hb⟩ | ⟨-, hb⟩
  · exact hP.drive p _ (hP.script s rest hs)
  · exact hP.block _ t (hP.script s rest hs) hb
  · exact hP.block s t hs hb

/-! ### Coherence -/

theorem coherent_resetEvent (s : State) : (resetEvent s).Coherent := ⟨rfl, fun _ => rfl⟩

/-- With `reset` low only the block matters. -/
theorem coherent_of_noReset {s : State} (hr : s.pins.reset = false) (hb : s.blk.Coherent) : s.Coherent :=
  ⟨hb, fun h => absurd (hr.symm.trans h) Bool.false_ne_true⟩

theorem State.Coherent.idle {s : State} (hs : s.Coherent) (hp : s.blk.ph = .idle) : s.blk = Block.reset := by
  have h := hs.1
  rwa [Block.Coherent, hp] at h

theorem State.Coherent.busy {s : State} (hs : s.Coherent) (hp : s.blk.ph = .busy) : ∃ w, s.blk = acceptedBlock w := by
  have h := hs.1
  rwa [Block.Coherent, hp] at h

theorem State.Coherent.done {s : State} (hs : s.Coherent) (hp : s.blk.ph = .done) : ∃ w, s.blk = executed w := by
  have h := hs.1
  rwa [Block.Coherent, hp] at h

theorem coherent_reset : Block.reset.Coherent := rfl

theorem coherent_acceptedBlock (w : ReqWord) : (acceptedBlock w).Coherent := ⟨w, rfl⟩

theorem coherent_executed (w : ReqWord) : (executed w).Coherent := by
  rw [Block.Coherent, executed_ph]
  exact ⟨w, rfl⟩

/-- The Execute of a coherent block in `BUSY`. -/
theorem State.Coherent.executeWord {s t : State} (hs : s.Coherent) (hp : s.blk.ph = .busy) {w : ReqWord}
    (hw : s.blk.rq = some w) (h : executeWord w s = .next t) : t = s.setBlk (executed w) := by
  obtain ⟨v, hv⟩ := hs.busy hp
  obtain rfl : v = w := Option.some.inj ((congrArg Block.rq hv).symm.trans hw)
  rw [executeWord_accepted hv] at h
  cases h
  rfl

/-- The Accept of an empty block holds the accepted word and nothing else. -/
theorem accept_blk {s : State} (h : s.blk = Block.reset) : (accept s).blk = acceptedBlock s.pins.reqData := by
  rw [accept, acceptWord, h]
  rfl

/-- The cases of `blockStep_cases` in order: reset, Accept, waiting in `IDLE`, Execute, Deliver, waiting in `DONE`. -/
theorem coherent_stepInvariant : StepInvariant State.Coherent where
  script _ _ hs := hs
  drive p s hs := by
    cases hp : p.reset
    · rw [drive_noReset hp]
      exact coherent_of_noReset hp hs.1
    · rw [drive_reset hp]
      exact coherent_resetEvent _
  block s t hs h := by
    rcases blockStep_cases h with ⟨-, rfl⟩ | ⟨hr, hp, -, rfl⟩ | ⟨-, -, -, rfl⟩ | ⟨hr, hp, w, hw, hx⟩ |
      ⟨hr, -, -, r, -, rfl⟩ | ⟨-, -, -, rfl⟩
    · exact coherent_resetEvent s
    · refine coherent_of_noReset hr ?_
      rw [accept_blk (hs.idle hp)]
      exact coherent_acceptedBlock _
    · exact hs
    · rw [hs.executeWord hp hw hx]
      exact coherent_of_noReset hr (coherent_executed w)
    · exact coherent_of_noReset hr coherent_reset
    · exact hs

/-- Settles O39: coherence is kept by each kind of event. -/
theorem stepKeepsCoherent : Obligations.StepKeepsCoherent := fun _ _ hs h => coherent_stepInvariant.step hs h

/-- Settles O38: `State.reset` is idle, and its block is the empty one. -/
theorem resetIsCoherent : Obligations.ResetIsCoherent := ⟨coherent_reset, fun _ => rfl⟩

/-! ### The observation (R12) -/

/-- Faithful while a word is in flight: the word is the last one accepted, the earlier ones are answered. -/
theorem faithful_inFlight {s : State} (hp : s.blk.ph ≠ .idle) : s.Faithful ↔
    ∃ ws w, s.blk.rq = some w ∧ s.env.accepted = ws ++ [w] ∧ s.env.delivered = ws.map resp := by
  rw [State.Faithful]
  cases h : s.blk.ph with
  | idle => exact absurd h hp
  | busy => rfl
  | done => rfl

theorem faithful_idle {s : State} (hp : s.blk.ph = .idle) :
    s.Faithful ↔ s.env.delivered = s.env.accepted.map resp := by rw [State.Faithful, hp]

theorem faithful_resetEvent (s : State) : (resetEvent s).Faithful := rfl

/-- Settles O45: nothing is accepted and nothing is delivered. -/
theorem resetIsFaithful : Obligations.ResetIsFaithful := rfl

theorem faithful_accept {s : State} (hp : s.blk.ph = .idle) (hs : s.Faithful) : (accept s).Faithful :=
  (faithful_inFlight (by rw [accept, acceptWord_ph]; decide)).mpr
    ⟨s.env.accepted, s.pins.reqData, rfl, rfl, (faithful_idle hp).mp hs⟩

/-- Execute keeps the word in flight. -/
theorem faithful_executed {s : State} (hp : s.blk.ph = .busy) {w : ReqWord} (hw : s.blk.rq = some w)
    (hs : s.Faithful) : (s.setBlk (executed w)).Faithful := by
  obtain ⟨ws, v, hv, hacc, hdel⟩ := (faithful_inFlight (by rw [hp]; decide)).mp hs
  obtain rfl : v = w := Option.some.inj (hv.symm.trans hw)
  exact (faithful_inFlight (by rw [setBlk_blk, executed_ph]; decide)).mpr ⟨ws, v, executed_rq v, hacc, hdel⟩

/-- Deliver answers the word in flight, the last one accepted, with its response. -/
theorem faithful_deliver {s : State} (hc : s.Coherent) (hp : s.blk.ph = .done) {r : RspWord}
    (hr : s.blk.rs = some r) (hs : s.Faithful) :
    State.Faithful { s with blk := Block.reset, env := { s.env with delivered := s.env.delivered ++ [r] } } := by
  obtain ⟨w, hw⟩ := hc.done hp
  obtain ⟨ws, v, hv, hacc, hdel⟩ := (faithful_inFlight (by rw [hp]; decide)).mp hs
  obtain rfl : w = v := by rw [hw, executed_rq] at hv; exact Option.some.inj hv
  obtain rfl : resp w = r := by rw [hw, executed_rs] at hr; exact Option.some.inj hr
  refine (faithful_idle rfl).mpr ?_
  change s.env.delivered ++ [resp w] = s.env.accepted.map resp
  rw [hacc, hdel, List.map_append, List.map_singleton]

/-- The cases of `blockStep_cases` in order: reset, Accept, waiting in `IDLE`, Execute, Deliver, waiting in `DONE`. -/
theorem observation_stepInvariant : StepInvariant fun s => s.Coherent ∧ s.Faithful where
  script _ _ hs := hs
  drive p s hs := by
    refine ⟨coherent_stepInvariant.drive p s hs.1, ?_⟩
    cases hp : p.reset
    · rw [drive_noReset hp]
      exact hs.2
    · rw [drive_reset hp]
      exact faithful_resetEvent _
  block s t hs h := by
    obtain ⟨hc, hf⟩ := hs
    refine ⟨coherent_stepInvariant.block s t hc h, ?_⟩
    rcases blockStep_cases h with ⟨-, rfl⟩ | ⟨-, hp, -, rfl⟩ | ⟨-, -, -, rfl⟩ | ⟨-, hp, w, hw, hx⟩ |
      ⟨-, hp, -, r, hr, rfl⟩ | ⟨-, -, -, rfl⟩
    · exact faithful_resetEvent s
    · exact faithful_accept hp hf
    · exact hf
    · rw [hc.executeWord hp hw hx]
      exact faithful_executed hp hw hf
    · exact faithful_deliver hc hp hr hf
    · exact hf

/-- Settles O46: the observation, beside coherence, is kept by each kind of event. -/
theorem stepKeepsObservation : Obligations.StepKeepsObservation := fun _ _ hc hf h =>
  (observation_stepInvariant.step ⟨hc, hf⟩ h).2

/-! ### A coherent machine goes on -/

theorem coherent_blockStep {s : State} (hs : s.Coherent) : ∃ t, blockStep s = .next t := by
  cases hr : s.pins.reset with
  | true => exact ⟨_, blockStep_reset hr⟩
  | false =>
    cases hp : s.blk.ph with
    | idle =>
      cases hv : s.pins.reqValid with
      | false => exact ⟨_, blockStep_idle hr hp hv⟩
      | true => exact ⟨_, blockStep_accept hr hp hv⟩
    | busy =>
      obtain ⟨w, hw⟩ := hs.busy hp
      exact ⟨_, (blockStep_execute hr hp (congrArg Block.rq hw)).trans (executeWord_accepted hw)⟩
    | done =>
      cases hv : s.pins.rspReady with
      | false => exact ⟨_, blockStep_done hr hp hv⟩
      | true =>
        obtain ⟨w, hw⟩ := hs.done hp
        exact ⟨_, (blockStep_deliver hr hp hv).trans (deliver_ok (w := resp w) (by rw [hw, executed_rs]))⟩

/-- Settles O40: the host's move always goes on, and so does the block's, whose latches hold what its step reads. -/
theorem coherentMachineNeverStops : Obligations.CoherentMachineNeverStops := by
  intro s hs
  rcases hscript : s.env.script with _ | ⟨m, rest⟩
  · rw [step_wait hscript]
    exact coherent_blockStep hs
  · rw [step_script hscript]
    cases m with
    | drive p => exact ⟨_, rfl⟩
    | wait => exact coherent_blockStep (coherent_stepInvariant.script s rest hs)

/-- Settles O41: with `rsp_valid` high the block is in `DONE`, where it holds the word and its response. -/
theorem responsePortShowsTheResponse : Obligations.ResponsePortShowsTheResponse := by
  intro s hs
  refine ⟨fun hv => ?shown, fun hv => ?absent⟩
  case shown =>
    have hp : s.blk.ph = .done := by
      rw [State.rspValid, Bool.and_eq_true, beq_iff_eq] at hv
      exact hv.1
    obtain ⟨w, hw⟩ := hs.done hp
    exact ⟨w, by rw [hw, executed_rq], by rw [State.rspData, if_pos hv, hw, executed_rs]⟩
  case absent => rw [State.rspData, hv, if_neg Bool.false_ne_true]

/-! ### Runs -/

theorem stepN_succ {s t : State} (h : step s = .next t) (n : Nat) : stepN (n + 1) s = stepN n t := by
  rw [stepN, h]
  rfl

/-- An invariant of the step under which the machine goes on holds all along a run. -/
theorem StepInvariant.stepN {P : State → Prop} (hP : StepInvariant P)
    (hgo : ∀ s, P s → ∃ t, Machine.step s = .next t) (n : Nat) {s : State} (hs : P s) :
    ∃ t, stepN n s = some t ∧ P t := by
  induction n generalizing s with
  | zero => exact ⟨s, rfl, hs⟩
  | succ n ih =>
    obtain ⟨u, hu⟩ := hgo s hs
    rw [stepN_succ hu]
    exact ih (hP.step hs hu)

/-- Settles O47: coherence and the observation hold at reset, under every script, and along every run. -/
theorem everyRunIsFaithful : Obligations.EveryRunIsFaithful := fun moves n =>
  observation_stepInvariant.stepN (fun s hs => coherentMachineNeverStops s hs.1) n
    (observation_stepInvariant.script State.reset moves ⟨resetIsCoherent, resetIsFaithful⟩)

end Sys2Proof.Machine
end

section
/-! `MemWrite`, the frames of the two operations and the canonical form of memory (spec/20_memory.md R41, R45, R48). -/

namespace Sys2Proof.Machine

/-- Settles O24: the written block is the old one with `writeBytes` in `MSG`, which reads as it should inside and
outside. -/
theorem memWriteIsBounded : Obligations.MemWriteIsBounded := fun b addr v =>
  ⟨fun h => ⟨_, memWrite_ok h, fun i hi => Memory.read_writeBytes_inside b.msg addr i v hi,
    fun a ha => Memory.read_writeBytes_outside b.msg addr a v ha⟩, memWrite_outside⟩

/-! ### Frames -/

/-- Settles O9: on success `TCTR` stores eight bytes from address 0 on, on an error none. -/
theorem tctrFrame : Obligations.TctrFrame := by
  intro t p s u h
  by_cases hp : p = 0
  · subst hp
    cases h
    exact ⟨rfl, rfl, rfl, rfl, rfl, rfl, rfl, rfl, fun _ _ => rfl, fun _ => ⟨rfl, rfl⟩⟩
  · rw [exec_tctr_ok t hp] at h
    cases h
    have houtside : ∀ a, 8 ≤ a → Memory.read (Memory.writeBytes s.blk.msg 0 (enc8 (ctr t p)).toList) a =
        Memory.read s.blk.msg a :=
      fun a ha => Memory.read_writeBytes_outside _ _ _ _ (.inr (by simpa using ha))
    exact ⟨rfl, rfl, rfl, rfl, rfl, rfl, rfl, rfl, houtside, fun h0 => absurd h0 hp⟩

/-- Settles O15: no form of `DTRM` touches `MSG`, and its error forms only respond. -/
theorem dtrmFrame : Obligations.DtrmFrame := by
  intro alg n dig s u h
  by_cases hn : n = 0
  · subst hn
    cases h
    exact ⟨rfl, rfl, rfl, rfl, fun _ => rfl, fun _ => ⟨rfl, rfl, rfl, rfl, rfl⟩⟩
  · cases ha : Alg.ofByte alg with
    | none =>
      rw [exec_dtrm_unknown ha hn] at h
      cases h
      exact ⟨rfl, rfl, rfl, rfl, fun _ => rfl, fun _ => ⟨rfl, rfl, rfl, rfl, rfl⟩⟩
    | some a =>
      have hvalid : ¬(n = 0 ∨ 3 < alg.toNat) := by
        rw [← ofByte_eq_none, ha]
        simpa using hn
      rw [exec_dtrm_ok ha hn] at h
      cases h
      exact ⟨rfl, rfl, rfl, rfl, fun _ => rfl, fun herr => absurd herr hvalid⟩

/-! ### The canonical form -/

/-- A memory in canonical form that lists addresses of `MSG` only. -/
def MsgCanonical (m : Memory) : Prop := Memory.wf m ∧ Memory.inSpace 8 m

theorem msgCanonical_nil : MsgCanonical [] := ⟨List.Pairwise.nil, List.forall_mem_nil _⟩

theorem MsgCanonical.writeBytes {m : Memory} (h : MsgCanonical m) (v : Vector Byte 8) :
    MsgCanonical (Memory.writeBytes m 0 v.toList) :=
  ⟨Memory.writeBytes_wf h.1 0 v.toList, Memory.writeBytes_inSpace h.2 (by simp)⟩

/-- An operation leaves `MSG` as it is or writes its eight bytes (R48). -/
theorem exec_msg {i : Instr} {s t : State} (h : exec i s = .next t) :
    t.blk.msg = s.blk.msg ∨ ∃ v : Vector Byte 8, t.blk.msg = Memory.writeBytes s.blk.msg 0 v.toList := by
  cases i using instrForms with
  | tctrZero t => cases h; exact .inl rfl
  | tctrOk t p hp => rw [exec_tctr_ok t hp] at h; cases h; exact .inr ⟨_, rfl⟩
  | dtrmZero alg dig => cases h; exact .inl rfl
  | dtrmUnknown alg n dig hn ha => rw [exec_dtrm_unknown ha hn] at h; cases h; exact .inl rfl
  | dtrmOk alg n dig a hn ha => rw [exec_dtrm_ok ha hn] at h; cases h; exact .inl rfl

theorem executeWord_msgCanonical {w : ReqWord} {s t : State} (hs : MsgCanonical s.blk.msg)
    (h : executeWord w s = .next t) : MsgCanonical t.blk.msg := by
  cases hd : decode w with
  | instr i =>
    simp only [executeWord, hd] at h
    obtain hmsg | ⟨v, hmsg⟩ := exec_msg h
    · exact hmsg ▸ hs
    · exact hmsg ▸ hs.writeBytes v
  | illegal c =>
    simp only [executeWord, hd, execIllegal_eq] at h
    cases h
    exact hs

/-- The cases of `blockStep_cases` in order: reset, Accept, waiting in `IDLE`, Execute, Deliver, waiting in `DONE`. -/
theorem msgCanonical_stepInvariant : StepInvariant fun s => MsgCanonical s.blk.msg where
  script _ _ hs := hs
  drive p s hs := by
    cases hp : p.reset
    · rw [drive_noReset hp]
      exact hs
    · rw [drive_reset hp]
      exact msgCanonical_nil
  block s t hs h := by
    rcases blockStep_cases h with ⟨-, rfl⟩ | ⟨-, -, -, rfl⟩ | ⟨-, -, -, rfl⟩ | ⟨-, -, w, -, hx⟩ |
      ⟨-, -, -, r, -, rfl⟩ | ⟨-, -, -, rfl⟩
    · exact msgCanonical_nil
    · exact hs
    · exact hs
    · exact executeWord_msgCanonical hs hx
    · exact msgCanonical_nil
    · exact hs

/-- Settles O25: the canonical form of `MSG` is kept by each kind of event. -/
theorem stepKeepsMemoryCanonical : Obligations.StepKeepsMemoryCanonical := fun _ _ hwf hspace h =>
  msgCanonical_stepInvariant.step ⟨hwf, hspace⟩ h

/-! ### A canonical memory is its reads -/

@[simp] theorem Memory.read_cons_same (a : Nat) (v : Byte) (m : Memory) : Memory.read ((a, v) :: m) a = some v :=
  if_pos rfl

theorem Memory.read_cons_other {a b : Nat} (h : a ≠ b) (v : Byte) (m : Memory) :
    Memory.read ((a, v) :: m) b = Memory.read m b := if_neg h

/-- An address below every listed one holds no value. -/
theorem Memory.read_below {m : Memory} {a : Nat} (h : ∀ c ∈ m, a < c.1) : Memory.read m a = none := by
  induction m with
  | nil => rfl
  | cons c m ih =>
    obtain ⟨hc, hm⟩ := List.forall_mem_cons.mp h
    rw [Memory.read_cons_other hc.ne', ih hm]

/-- Of two non-empty canonical memories with the same reads, neither begins below the other. -/
theorem Memory.head_le {k k' : Nat} {v v' : Byte} {m m' : Memory} (hwf : Memory.wf ((k', v') :: m'))
    (h : ∀ a, Memory.read ((k, v) :: m) a = Memory.read ((k', v') :: m') a) : k' ≤ k := by
  by_contra hlt
  have hk' : k < k' := Nat.lt_of_not_le hlt
  have hbelow : ∀ c ∈ (k', v') :: m', k < c.1 :=
    List.forall_mem_cons.mpr ⟨hk', fun c hc => hk'.trans (List.rel_of_pairwise_cons hwf hc)⟩
  have := h k
  rw [Memory.read_cons_same, Memory.read_below hbelow] at this
  cases this

/-- Settles O26: by induction, the first cells agree because each is the lowest address that reads a value; off their
address the rests read the same, and at it neither lists anything. -/
theorem canonicalMemoryIsItsReads : Obligations.CanonicalMemoryIsItsReads := by
  intro m
  induction m with
  | nil =>
    intro m' _ _ h
    cases m' with
    | nil => rfl
    | cons c m' =>
      obtain ⟨k, v⟩ := c
      simpa using h k
  | cons c m ih =>
    intro m' hwf hwf' h
    obtain ⟨k, v⟩ := c
    cases m' with
    | nil => simpa using h k
    | cons c' m' =>
      obtain ⟨k', v'⟩ := c'
      obtain rfl : k = k' := le_antisymm (Memory.head_le hwf fun a => (h a).symm) (Memory.head_le hwf' h)
      have hv := h k
      rw [Memory.read_cons_same, Memory.read_cons_same, Option.some.injEq] at hv
      have hrest : ∀ a, Memory.read m a = Memory.read m' a := by
        intro a
        by_cases ha : k = a
        · subst ha
          rw [Memory.read_below fun _ => List.rel_of_pairwise_cons hwf,
            Memory.read_below fun _ => List.rel_of_pairwise_cons hwf']
        · rw [← Memory.read_cons_other ha v m, h a, Memory.read_cons_other ha]
      rw [hv, ih m' hwf.of_cons hwf'.of_cons hrest]

end Sys2Proof.Machine
end

section
/-! The counter function and its bytes (spec/40_counter_divider.md R84 to R86). -/

namespace Sys2Proof.Machine

/-- The counter is `k` exactly in window `k` (R85). -/
theorem ctr_eq_iff (t : BitVec 64) {p : BitVec 64} (hp : p ≠ 0) (k : Nat) :
    (ctr t p).toNat = k ↔ k * p.toNat ≤ t.toNat ∧ t.toNat < (k + 1) * p.toNat := by
  have hpos := BitVec.toNat_pos_of_ne_zero hp
  rw [ctr_toNat, Nat.div_eq_iff hpos, add_mul, one_mul]
  omega

/-- Settles O10: the quotient is monotonic, it is `k` exactly in window `k`, and a second that ends window `k` is
followed by the first of window `k + 1`. -/
theorem counterContract : Obligations.CounterContract := by
  refine ⟨fun t₁ t₂ p _ hle => ?monotonic, fun t p k hp => ctr_eq_iff t hp k, fun t p k hp hlast hfits => ?next⟩
  case monotonic =>
    rw [BitVec.le_def, ctr_toNat, ctr_toNat]
    exact Nat.div_le_div_right (BitVec.le_def.mp hle)
  case next =>
    have hpos := BitVec.toNat_pos_of_ne_zero hp
    have hone : (t + 1).toNat = (k + 1) * p.toNat := by
      rw [BitVec.toNat_add, ← hlast]
      exact Nat.mod_eq_of_lt (hlast ▸ hfits)
    have hnow : (ctr t p).toNat = k := by
      rw [add_mul, one_mul] at hlast
      rw [ctr_eq_iff t hp, add_mul, one_mul]
      omega
    have hthen : (ctr (t + 1) p).toNat = k + 1 := by
      rw [ctr_eq_iff _ hp, hone]
      exact ⟨le_rfl, Nat.mul_lt_mul_of_pos_right (Nat.lt_succ_self _) hpos⟩
    rw [hthen, hnow]

/-- With period 1 the counter is the time (R86). -/
theorem ctr_one (t : BitVec 64) : ctr t 1 = t := by
  apply BitVec.eq_of_toNat_eq
  rw [ctr_toNat]
  exact Nat.div_one _

/-- Settles O11: the quotient is the natural one, and its corner values are those of windows 0 and 1. -/
theorem counterRange : Obligations.CounterRange := by
  intro t p hp
  refine ⟨ctr_toNat t p, ?atMost, ctr_one t, ?zero, ?one⟩
  case atMost =>
    rw [BitVec.le_def, ctr_toNat]
    exact Nat.div_le_self ..
  case zero =>
    rw [← BitVec.toNat_inj, BitVec.lt_def]
    simpa using ctr_eq_iff t hp 0
  case one =>
    rw [← BitVec.toNat_inj]
    simpa using ctr_eq_iff t hp 1

/-- A slice of eight bits in the mask-and-shift form. -/
theorem extractLsb'_eq_shift_and_mask (q : BitVec 64) (k : Nat) :
    q.extractLsb' k 8 = ((q >>> k) &&& 0xFF).setWidth 8 := by
  apply BitVec.eq_of_toNat_eq
  rw [BitVec.extractLsb'_toNat, BitVec.toNat_setWidth, BitVec.toNat_and, BitVec.toNat_ushiftRight]
  change _ = (_ &&& (2 ^ 8 - 1)) % 2 ^ 8
  rw [Nat.and_two_pow_sub_one_eq_mod, Nat.mod_mod]

/-- Settles O12: eight bytes hold 64 bits, and byte `i` is a slice of them. -/
theorem counterBytesLoseNothing : Obligations.CounterBytesLoseNothing := by
  intro q
  refine ⟨fromBe_be_of_lt q.isLt, fun i hi => ⟨enc8_getElem q i hi, ?shift⟩⟩
  case shift =>
    rw [enc8_getElem q i hi, extractLsb'_eq_shift_and_mask, Nat.mul_sub]

end Sys2Proof.Machine
end

section
/-! Assembly, reduction and the ranges of `DTRM` (spec/41_truncation_modulo.md R95 to R100; spec/20_memory.md R47). -/

namespace Sys2Proof.Machine

/-! ### The assembly (R95) -/

theorem window_toList (win : Vector Byte 4) : win.toList = [win[0], win[1], win[2], win[3]] := by
  apply List.ext_getElem (by simp)
  intro i hi _
  have hi4 : i < 4 := by simpa using hi
  interval_cases i <;> simp

/-- Settles O16: by the value of the assembly, whose terms are at disjoint places. -/
theorem assemblyIsBigEndian : Obligations.AssemblyIsBigEndian := by
  intro win
  have hbin := binOf_toNat win
  have h1 := win[1].isLt
  have h2 := win[2].isLt
  have h3 := win[3].isLt
  refine ⟨?value, ?_, ?_, ?_, ?_⟩
  case value =>
    simp only [hbin, window_toList, fromBe, List.length_cons, List.length_nil]
    omega
  all_goals
    apply BitVec.eq_of_toNat_eq
    simp only [BitVec.extractLsb'_toNat, Nat.shiftRight_eq_div_pow, hbin]
    omega

/-- Settles O17: by the value of the reduction. -/
theorem reductionIsExact : Obligations.ReductionIsExact := otpOf_toNat

/-! ### What a `DTRM` that passes its checks leaves in the latches -/

theorem otpOf_of_ten_le (bin : BitVec 31) {n : Nat} (h : 10 ≤ n) : otpOf bin n = bin := if_pos h

/-- Settles O18: from ten digits on the reduction answers its operand. -/
theorem largeLengthIsIdentity : Obligations.LargeLengthIsIdentity := by
  intro alg n dig s hn halg
  obtain ⟨a, ha⟩ := ofByte_recognised halg
  have hn0 : n ≠ 0 := by
    rintro rfl
    exact absurd hn (by decide)
  exact ⟨_, digestBin a dig, exec_dtrm_ok ha hn0 dig s, rfl, congrArg some (otpOf_of_ten_le _ hn)⟩

theorem digestOtp_toNat (a : Alg) (n : Nat) (dig : Vector Byte 64) :
    (digestOtp a n dig).toNat = (digestBin a dig).toNat % 10 ^ n := otpOf_toNat _ _

theorem digestOtp_lt (a : Alg) (n : Nat) (dig : Vector Byte 64) : (digestOtp a n dig).toNat < 10 ^ n := by
  rw [digestOtp_toNat]
  exact Nat.mod_lt _ (by positivity)

/-- Settles O19: the remainder of `BIN` by `10^N` is at most `BIN`, below `10^N` and congruent to `BIN`. -/
theorem resultRanges : Obligations.ResultRanges := by
  intro alg n dig s hn halg
  obtain ⟨a, ha⟩ := ofByte_recognised halg
  refine ⟨_, digestBin a dig, digestOtp a n.toNat dig, exec_dtrm_ok ha hn dig s, rfl, rfl,
    ?atMost, digestOtp_lt a n.toNat dig, ?congruent⟩
  case atMost =>
    rw [BitVec.le_def, digestOtp_toNat]
    exact Nat.mod_le ..
  case congruent =>
    rw [digestOtp_toNat]
    exact Nat.mod_modEq ..

/-- Settles O20: the offset is at most 15, and the shortest digest has 20 bytes. -/
theorem windowInsideTheDigest : Obligations.WindowInsideTheDigest := by
  intro alg n dig s hn halg
  obtain ⟨a, ha⟩ := ofByte_recognised halg
  obtain ⟨hmin, hmax⟩ := a.dlen_bounds
  have hoff := (digestOffset a dig).isLt
  exact ⟨_, a.dlen, digestOffset a dig, exec_dtrm_ok ha hn dig s, rfl, rfl, by omega, hmax⟩

/-! ### What the response depends on (R100) -/

/-- `BIN` depends on 31 bits of the window only. -/
theorem binOf_congr {win win' : Vector Byte 4} (h0 : win[0].toNat % 128 = win'[0].toNat % 128)
    (h : ∀ j (hj : j < 4), 0 < j → win[j] = win'[j]) : binOf win = binOf win' := by
  apply BitVec.eq_of_toNat_eq
  rw [binOf_toNat, binOf_toNat, h0, h 1 (by decide) (by decide), h 2 (by decide) (by decide),
    h 3 (by decide) (by decide)]

/-- Two digests with the same `BIN` get the same answer. -/
theorem answerInstr_dtrm_congr {alg : Byte} {a : Alg} (ha : Alg.ofByte alg = some a) (n : BitVec 32)
    {dig dig' : Vector Byte 64} (h : digestBin a dig = digestBin a dig') :
    answerInstr (.dtrm alg n dig) = answerInstr (.dtrm alg n dig') := by
  by_cases hn : n = 0
  · rw [hn, answerInstr_dtrm_zero, answerInstr_dtrm_zero]
  · rw [answerInstr_dtrm_ok ha hn, answerInstr_dtrm_ok ha hn, digestOtp, digestOtp, h]

/-- Settles O21: the response is that of the answer, which depends on `BIN`, hence on the window bits; that the offsets
agree too is not needed. -/
theorem resultDependsOnTheWindowOnly : Obligations.ResultDependsOnTheWindowOnly := by
  intro alg n dig dig' s s' a ha _ h0 hwin
  obtain ⟨u, hu, hrs⟩ := exec_answers (.dtrm alg n dig) s
  obtain ⟨u', hu', hrs'⟩ := exec_answers (.dtrm alg n dig') s'
  have hanswer := answerInstr_dtrm_congr ha n (binOf_congr h0 hwin)
  refine ⟨u, u', hu, hu', ?_⟩
  rw [hrs, hrs', hanswer]
  rfl

end Sys2Proof.Machine
end

section
/-! Status, errors and the host's reading of a response (spec/30_encoding.md R70 to R73; spec/60_exceptions.md R131 to
R139). -/

namespace Sys2Proof.Machine

/-! ### The status and the operand checks (R132, R139) -/

theorem encodeResponse_okTctr_status (echo : Byte) (m : Vector Byte 8) :
    (encodeResponse echo (.okTctr m))[1] = statusOk := rspWord_status ..

theorem encodeResponse_okDtrm_status (echo : Byte) (otp : BitVec 31) :
    (encodeResponse echo (.okDtrm otp))[1] = statusOk := rspWord_status ..

theorem encodeResponse_err_status_ne_ok (echo : Byte) (c : Cause) :
    (encodeResponse echo (.err c))[1] ≠ statusOk := by
  rw [encodeResponse_err_status]
  exact c.code_ne_statusOk

theorem operandsValid_tctr (t p : BitVec 64) : (Instr.tctr t p).operandsValid = true ↔ p ≠ 0 := bne_iff_ne

theorem operandsValid_dtrm (alg : Byte) (n : BitVec 32) (dig : Vector Byte 64) :
    (Instr.dtrm alg n dig).operandsValid = true ↔ n ≠ 0 ∧ alg.toNat ≤ 3 := by
  rw [Instr.operandsValid, otpLenValid, algValid, Bool.and_eq_true, bne_iff_ne, decide_eq_true_iff]

/-- An operation succeeds exactly when its operands pass their checks. -/
theorem status_eq_ok_iff (i : Instr) (echo : Byte) :
    (encodeResponse echo (answerInstr i))[1] = statusOk ↔ i.operandsValid = true := by
  cases i using instrForms with
  | tctrZero t =>
    simp only [answerInstr_tctr_zero, encodeResponse_err_status_ne_ok, operandsValid_tctr, ne_eq, not_true_eq_false]
  | tctrOk t p hp =>
    simp only [answerInstr_tctr_ok t hp, encodeResponse_okTctr_status, operandsValid_tctr, hp, ne_eq,
      not_false_eq_true]
  | dtrmZero alg dig =>
    simp only [answerInstr_dtrm_zero, encodeResponse_err_status_ne_ok, operandsValid_dtrm, ne_eq, not_true_eq_false,
      false_and]
  | dtrmUnknown alg n dig hn ha =>
    have halg : ¬alg.toNat ≤ 3 := Nat.not_le.mpr (ofByte_eq_none.mp ha)
    simp only [answerInstr_dtrm_unknown ha hn, encodeResponse_err_status_ne_ok, operandsValid_dtrm, halg, and_false]
  | dtrmOk alg n dig a hn ha =>
    have halg : alg.toNat ≤ 3 := by
      rw [← Nat.not_lt, ← ofByte_eq_none, ha]
      exact nofun
    simp only [answerInstr_dtrm_ok ha hn, encodeResponse_okDtrm_status, operandsValid_dtrm, hn, halg, ne_eq,
      not_false_eq_true, and_self]

theorem resp_status_instr {w : ReqWord} {i : Instr} (h : decode w = .instr i) :
    (resp w)[1] = statusOk ↔ i.operandsValid = true := by
  rw [resp_instr h]
  exact status_eq_ok_iff i _

theorem resp_status_illegal {w : ReqWord} {c : Byte} (h : decode w = .illegal c) : (resp w)[1] ≠ statusOk := by
  rw [resp_illegal h]
  exact encodeResponse_err_status_ne_ok c _

/-- Settles O29: byte 0 selects the operation, whose success is that its operands pass; an illegal word is an error. -/
theorem successIffOperandsPass : Obligations.SuccessIffOperandsPass := by
  intro w s
  refine ⟨resp w, responseTo_eq_resp s w, ?_⟩
  by_cases hT : w[0] = opTctr
  · have hnotD : w[0] ≠ opDtrm := by rw [hT]; decide
    have hstatus := resp_status_instr (decode_tctr hT)
    rw [operandsValid_tctr, BitVec.toNat_ne, periodField_toNat] at hstatus
    exact hstatus.trans ⟨fun h => .inl ⟨hT, h⟩, fun h => h.elim And.right fun hD => absurd hD.1 hnotD⟩
  · by_cases hD : w[0] = opDtrm
    · have hstatus := resp_status_instr (decode_dtrm hD)
      rw [operandsValid_dtrm, BitVec.toNat_ne, otpLenField_toNat] at hstatus
      exact hstatus.trans ⟨fun h => .inr ⟨hD, h⟩, fun h => h.elim (fun hT' => absurd hT'.1 hT) And.right⟩
    · exact ⟨fun h => absurd h (resp_status_illegal (decode_illegal hT hD)),
        fun h => h.elim (fun hT' => absurd hT'.1 hT) fun hD' => absurd hD'.1 hD⟩

/-! ### Errors leave no result (R136, R138) -/

/-- A block whose word is answered with an error holds the word and the response only. -/
theorem executed_of_error {w : ReqWord} {c : Cause} (h : answer w = .err c) :
    executed w = respond (resp w) (acceptedBlock w) := by
  cases hd : decode w with
  | illegal c => exact executed_illegal hd
  | instr i =>
    rw [answer_instr hd] at h
    rw [executed_instr hd]
    clear hd
    cases i using instrForms with
    | tctrZero t => exact executedInstr_tctr_zero w t
    | tctrOk t p hp => rw [answerInstr_tctr_ok t hp] at h; cases h
    | dtrmZero alg dig => exact executedInstr_dtrm_zero w alg dig
    | dtrmUnknown alg n dig hn ha => exact executedInstr_dtrm_unknown w ha hn dig
    | dtrmOk alg n dig a hn ha => rw [answerInstr_dtrm_ok ha hn] at h; cases h

/-- Settles O30: a status other than `0x00` is that of an error, which leaves the block as `executed_of_error` says. -/
theorem errorsWriteNoResult : Obligations.ErrorsWriteNoResult := by
  intro w s
  obtain ⟨hstep, hrs⟩ := executeIsAFunctionOfTheWord w s
  refine ⟨_, resp w, hstep, hrs, fun hne => ?_⟩
  obtain ⟨c, hc⟩ := encodeResponse_status_ne_ok hne
  exact executed_of_error hc

/-! ### The host reads the response back -/

theorem Cause.ofCode_code (c : Cause) : Cause.ofCode c.code = some c := by cases c <;> rfl

theorem readResponse_err (echo : Byte) (c : Cause) : readResponse (encodeResponse echo (.err c)) = some (.err c) := by
  rw [readResponse, if_neg (encodeResponse_err_status_ne_ok echo c), encodeResponse_err_status, Cause.ofCode_code]
  rfl

theorem readResponse_okTctr (m : Vector Byte 8) :
    readResponse (encodeResponse opTctr (.okTctr m)) = some (.okTctr m) := by
  have hpayload : payloadField (encodeResponse opTctr (.okTctr m)) = m := by
    ext k hk : 1
    rw [payloadField_getElem, encodeResponse, rspWord_payload]
  rw [readResponse, if_pos (encodeResponse_okTctr_status ..), if_pos (encodeResponse_echo ..), hpayload]

theorem readResponse_okDtrm (otp : BitVec 31) :
    readResponse (encodeResponse opDtrm (.okDtrm otp)) = some (.okDtrm otp) := by
  have hecho : (encodeResponse opDtrm (.okDtrm otp))[0] ≠ opTctr := by rw [encodeResponse_echo]; decide
  rw [readResponse, if_pos (encodeResponse_okDtrm_status ..), if_neg hecho, if_pos (encodeResponse_echo ..),
    encodeResponse_okDtrm_value, BitVec.ofNat_toNat, BitVec.setWidth_eq]

/-- Behind the opcode of its operation, every answer is read back. -/
theorem readResponse_answerInstr (i : Instr) :
    readResponse (encodeResponse i.opcode (answerInstr i)) = some (answerInstr i) := by
  cases i using instrForms with
  | tctrZero t => exact readResponse_err ..
  | tctrOk t p hp => rw [answerInstr_tctr_ok t hp]; exact readResponse_okTctr _
  | dtrmZero alg dig => exact readResponse_err ..
  | dtrmUnknown alg n dig hn ha => rw [answerInstr_dtrm_unknown ha hn]; exact readResponse_err ..
  | dtrmOk alg n dig a hn ha => rw [answerInstr_dtrm_ok ha hn]; exact readResponse_okDtrm _

/-- Settles O31: the echo byte is the opcode of the decoded operation, and an illegal word's answer is an error. -/
theorem hostReadsTheResponse : Obligations.HostReadsTheResponse := by
  intro w
  cases hd : decode w with
  | instr i => rw [resp_instr hd, answer_instr hd, readResponse_answerInstr]
  | illegal c => rw [resp_illegal hd, answer_illegal hd, readResponse_err]

/-! ### What the response does not depend on (R4, R33, R67, R68) -/

theorem exec_ph {i : Instr} {s t : State} (h : exec i s = .next t) : t.blk.ph = .done := by
  cases i using instrForms with
  | tctrZero t => cases h; rfl
  | tctrOk t p hp => rw [exec_tctr_ok t hp] at h; cases h; rfl
  | dtrmZero alg dig => cases h; rfl
  | dtrmUnknown alg n dig hn ha => rw [exec_dtrm_unknown ha hn] at h; cases h; rfl
  | dtrmOk alg n dig a hn ha => rw [exec_dtrm_ok ha hn] at h; cases h; rfl

/-- Settles O43: in both states the response is the answer of the operation, and the phase is `DONE`. -/
theorem responseIgnoresTheState : Obligations.ResponseIgnoresTheState := by
  intro i s s'
  obtain ⟨u, hu, hrs⟩ := exec_answers i s
  obtain ⟨u', hu', hrs'⟩ := exec_answers i s'
  exact ⟨u, u', hu, hu', hrs.trans hrs'.symm, (exec_ph hu).trans (exec_ph hu').symm⟩

/-- Words that agree on a range of bytes have the same byte range there. -/
theorem byteRange_congr {w w' : ReqWord} {i j : Nat} (h : ∀ k (hk : k < 70), i ≤ k → k ≤ j → w[k] = w'[k]) :
    byteRange w.toList i j = byteRange w'.toList i j := by
  apply List.ext_getElem? fun k => ?_
  simp only [byteRange, List.getElem?_take, List.getElem?_drop]
  split
  · by_cases hk : i + k < 70
    · simp [hk, h (i + k) hk (by omega) (by omega)]
    · simp [hk]
  · rfl

/-- `Resp` depends on byte 0 and on the answer. -/
theorem resp_congr {w w' : ReqWord} (h0 : w[0] = w'[0]) (h : answer w = answer w') : resp w = resp w' := by
  rw [resp, resp, h, opcodeField, opcodeField, h0]

theorem answer_congr_tctr {w w' : ReqWord} (hT : w[0] = opTctr) (h : ∀ k (hk : k < 70), k ≤ 16 → w[k] = w'[k]) :
    answer w = answer w' := by
  have htime : timeField w = timeField w' := by
    rw [timeField, byteRange_congr fun k hk _ hk8 => h k hk (by omega), timeField]
  have hperiod : periodField w = periodField w' := by
    rw [periodField, byteRange_congr fun k hk _ hk16 => h k hk hk16, periodField]
  have hT' : w'[0] = opTctr := (h 0 (by decide) (by decide)).symm.trans hT
  rw [answer_instr (decode_tctr hT), answer_instr (decode_tctr hT'), htime, hperiod]

/-- `BIN` reads the digest below `DLEN` only. -/
theorem digestBin_congr (a : Alg) {dig dig' : Vector Byte 64}
    (h : ∀ k (hk : k < 64), k < a.dlen → dig[k] = dig'[k]) : digestBin a dig = digestBin a dig' := by
  obtain ⟨hmin, hmax⟩ := a.dlen_bounds
  have hlast : lastByte a dig = lastByte a dig' := h _ (by omega) (by omega)
  have hoff := (digestOffset a dig').isLt
  have hwin : digestWindow a dig = digestWindow a dig' := by
    ext j hj : 1
    have hoffset : digestOffset a dig = digestOffset a dig' := by rw [digestOffset, digestOffset, hlast]
    simp only [digestWindow, windowOf_getElem, hoffset]
    exact h _ (by omega) (by omega)
  rw [digestBin, digestBin, hwin]

/-- Where `DTRM` stops before it reads the digest, the answer does not depend on it. -/
theorem answerInstr_dtrm_error_congr {alg : Byte} {n : BitVec 32} (h : Alg.ofByte alg = none ∨ n = 0)
    (dig dig' : Vector Byte 64) : answerInstr (.dtrm alg n dig) = answerInstr (.dtrm alg n dig') := by
  by_cases hn : n = 0
  · rw [hn, answerInstr_dtrm_zero, answerInstr_dtrm_zero]
  · have ha := h.resolve_right hn
    rw [answerInstr_dtrm_unknown ha hn, answerInstr_dtrm_unknown ha hn]

/-- `DTRM` words that agree before the digest field get the same answer if the digests do not tell them apart. -/
theorem answer_congr_dtrm {w w' : ReqWord} (hD : w[0] = opDtrm) (h : ∀ k (hk : k < 70), k < 6 → w[k] = w'[k])
    (hdig : answerInstr (.dtrm (algField w) (otpLenField w) (digestField w)) =
      answerInstr (.dtrm (algField w) (otpLenField w) (digestField w'))) : answer w = answer w' := by
  have halg : algField w = algField w' := h 1 (by decide) (by decide)
  have hlen : otpLenField w = otpLenField w' := by
    rw [otpLenField, byteRange_congr fun k hk _ hk5 => h k hk (by omega), otpLenField]
  have hD' : w'[0] = opDtrm := (h 0 (by decide) (by decide)).symm.trans hD
  rw [answer_instr (decode_dtrm hD), answer_instr (decode_dtrm hD'), hdig, halg, hlen]

/-- Settles O44: the response is `Resp` of the word, whose answer reads only the bytes that agree. -/
theorem ignoredBytesDoNotMatter : Obligations.IgnoredBytesDoNotMatter := by
  intro w w' s s'
  simp only [responseTo_eq_resp, Option.some.injEq]
  refine ⟨fun hT h => ?tctr, fun a hD ha h => ?recognised, fun hD herr h => ?error⟩
  case tctr => exact resp_congr (h 0 (by decide) (by decide)) (answer_congr_tctr hT h)
  case recognised =>
    refine resp_congr (h 0 (by decide) (by omega)) (answer_congr_dtrm hD (fun k hk hk6 => h k hk (by omega)) ?_)
    refine answerInstr_dtrm_congr ha _ (digestBin_congr a fun k hk hka => ?_)
    rw [digestField_getElem, digestField_getElem]
    exact h _ (by omega) (by omega)
  case error =>
    refine resp_congr (h 0 (by decide) (by decide)) (answer_congr_dtrm hD h ?_)
    refine answerInstr_dtrm_error_congr (herr.imp ofByte_eq_none.mpr fun hlen => ?_) _ _
    apply BitVec.eq_of_toNat_eq
    rw [otpLenField_toNat, hlen]
    rfl

end Sys2Proof.Machine
end

section
/-! The three steps at the ports, one by one, and Reset (spec/10_state.md R30 to R34; spec/70_reset_and_hazards.md
R150, R151). -/

namespace Sys2Proof.Machine

/-! ### Execute -/

theorem executeWord_instr {w : ReqWord} {i : Instr} (h : decode w = .instr i) (s : State) :
    executeWord w s = exec i s := by simp only [executeWord, h]

/-- An Execute changes the block and nothing else, whatever the word. -/
theorem executeWord_next {w : ReqWord} {s t : State} (h : executeWord w s = .next t) : t = s.setBlk t.blk := by
  cases hd : decode w with
  | instr i =>
    rw [executeWord_instr hd] at h
    exact exec_next h
  | illegal c =>
    simp only [executeWord, hd, execIllegal_eq] at h
    cases h
    rfl

/-- A planned `wait` is the block's step on the state with that move taken off. -/
theorem step_waitMove {s : State} {rest : List HostMove} (h : s.env.script = .wait :: rest) :
    step s = blockStep { s with env := { s.env with script := rest } } := by rw [step_script h]

/-- A planned `drive` is the host's move on the state with that move taken off. -/
theorem step_driveMove {s : State} {p : Pins} {rest : List HostMove} (h : s.env.script = .drive p :: rest) :
    step s = .next (drive p { s with env := { s.env with script := rest } }) := by rw [step_script h]

/-- Settles O32: in `BUSY` the block's step is Execute of the word in `RQ`, whose rule is that of the decoded
operation. -/
theorem stepRunsTheDecodedOperation : Obligations.StepRunsTheDecodedOperation := by
  intro s w i hr hp hw hd
  refine ⟨fun hscript => ?now, fun rest hscript => ?afterWait⟩
  case now => rw [step_wait hscript, blockStep_execute hr hp hw, executeWord_instr hd]
  case afterWait =>
    rw [step_waitMove hscript, blockStep_execute (s := { s with env := { s.env with script := rest } }) hr hp hw,
      executeWord_instr hd]

theorem decodeTableWord_eq_some {nbits n : Nat} {i : Instr} (h : decodeTableWord nbits n = some i) :
    decode (tableWord nbits n) = .instr i := by
  rw [decodeTableWord] at h
  split at h
  · rw [‹decode _ = _›, Option.some.inj h]
  · cases h

/-- Settles O33: the step after the Accept of a word is Execute of it. -/
theorem placedWordRunsNext : Obligations.PlacedWordRunsNext := by
  intro s nbits n i h
  exact (step_loadRequest _ s).trans (executeWord_instr (decodeTableWord_eq_some h) _)

/-! ### The output ports -/

theorem reqReady_notIdle {s : State} (h : s.blk.ph ≠ .idle) : s.reqReady = false := by
  rw [State.reqReady, beq_false_of_ne h, Bool.false_and]

theorem reqReady_reset {s : State} (h : s.pins.reset = true) : s.reqReady = false := by
  rw [State.reqReady, h, Bool.not_true, Bool.and_false]

theorem rspValid_reset {s : State} (h : s.pins.reset = true) : s.rspValid = false := by
  rw [State.rspValid, h, Bool.not_true, Bool.and_false]

theorem rspValid_done {s : State} (hr : s.pins.reset = false) (hp : s.blk.ph = .done) : s.rspValid = true := by
  rw [State.rspValid, hr, hp]
  rfl

/-! ### Accept, Deliver, Reset -/

/-- A block outside `IDLE` accepts no word. -/
theorem blockStep_accepted_of_notIdle {s t : State} (hr : s.pins.reset = false) (hp : s.blk.ph ≠ .idle)
    (h : blockStep s = .next t) : t.env.accepted = s.env.accepted := by
  rcases blockStep_cases h with ⟨hr', -⟩ | ⟨-, hidle, -⟩ | ⟨-, hidle, -⟩ | ⟨-, -, w, -, hx⟩ |
    ⟨-, -, -, r, -, rfl⟩ | ⟨-, -, -, rfl⟩
  · exact absurd (hr.symm.trans hr') Bool.false_ne_true
  · exact absurd hidle hp
  · exact absurd hidle hp
  · rw [executeWord_next hx]
    rfl
  · rfl
  · rfl

/-- Settles O34: with nothing planned the step is the block's, whose cases are those of the statement. -/
theorem acceptSamplesTheRequest : Obligations.AcceptSamplesTheRequest := by
  intro s hscript
  rw [step_wait hscript]
  refine ⟨fun hr hp hv => ?accept, fun hr hp hv => blockStep_idle hr hp hv, fun hr hp => ?notIdle, fun hr => ?reset⟩
  case accept => exact blockStep_accept hr hp hv
  case notIdle => exact ⟨reqReady_notIdle hp, fun t h => blockStep_accepted_of_notIdle hr hp h⟩
  case reset => exact ⟨reqReady_reset hr, resetEvent s, blockStep_reset hr, rfl, rfl, rfl⟩

/-- Settles O35: with nothing planned the step is the block's, which in `DONE` is Deliver, waiting or reset. -/
theorem deliverClearsTheBlock : Obligations.DeliverClearsTheBlock := by
  intro s r hscript hp hrs
  rw [step_wait hscript]
  refine ⟨fun hr => ⟨rspValid_done hr hp, ?data, fun hv => ?deliver, fun hv => blockStep_done hr hp hv⟩,
    fun hr => ⟨rspValid_reset hr, resetEvent s, blockStep_reset hr, rfl⟩⟩
  case data => rw [State.rspData, if_pos (rspValid_done hr hp), hrs]
  case deliver => exact (blockStep_deliver hr hp hv).trans (deliver_ok hrs)

/-- The ports of a block that a Reset event has just emptied, `reset` still high. -/
theorem resetEvent_ports {s : State} (h : s.pins.reset = true) :
    (resetEvent s).reqReady = false ∧ (resetEvent s).rspValid = false :=
  ⟨reqReady_reset h, rspValid_reset h⟩

/-- Settles O36: raising `reset` is the Reset event, holding it makes every step of the block one, and lowering it only
sets the pins. -/
theorem resetFromEveryState : Obligations.ResetFromEveryState := by
  refine ⟨fun s p rest hscript hr => ?raise, fun s hscript hr => ?hold, fun s p rest hscript hr => ?lower⟩
  case raise =>
    rw [step_driveMove hscript, drive_reset hr]
    exact ⟨_, rfl, rfl, rfl, resetEvent_ports hr⟩
  case hold =>
    rw [step_wait hscript, blockStep_reset hr]
    exact ⟨_, rfl, rfl, rfl, resetEvent_ports hr⟩
  case lower =>
    rw [step_driveMove hscript, drive_noReset hr]
    exact ⟨_, rfl, rfl, rfl⟩

end Sys2Proof.Machine
end

section
/-! One operation through the ports (spec/10_state.md R30 to R32; spec/70_reset_and_hazards.md R151, R160, R165). -/

namespace Sys2Proof.Machine

/-! ### Runs of a host that keeps `reset` low, one event at a time -/

theorem stepN_drive {p : Pins} (hr : p.reset = false) (b : Block) (pins : Pins) (rest : List HostMove)
    (acc : List ReqWord) (del : List RspWord) (n : Nat) :
    stepN (n + 1) ⟨b, pins, ⟨.drive p :: rest, acc, del⟩⟩ = stepN n ⟨b, p, ⟨rest, acc, del⟩⟩ := by
  refine stepN_succ ?_ n
  rw [step_driveMove rfl, drive_noReset hr]

theorem stepN_accept {pins : Pins} (hr : pins.reset = false) (hv : pins.reqValid = true) (rest : List HostMove)
    (acc : List ReqWord) (del : List RspWord) (n : Nat) :
    stepN (n + 1) ⟨Block.reset, pins, ⟨.wait :: rest, acc, del⟩⟩ =
      stepN n ⟨acceptedBlock pins.reqData, pins, ⟨rest, acc ++ [pins.reqData], del⟩⟩ := by
  refine stepN_succ ?_ n
  rw [step_waitMove rfl]
  exact blockStep_accept hr rfl hv

/-- The Execute of an accepted word, as the block's step. -/
theorem blockStep_accepted {s : State} {w : ReqWord} (hr : s.pins.reset = false) (hs : s.blk = acceptedBlock w) :
    blockStep s = .next (s.setBlk (executed w)) :=
  (blockStep_execute hr (congrArg Block.ph hs) (congrArg Block.rq hs)).trans (executeWord_accepted hs)

theorem stepN_execute {pins : Pins} (hr : pins.reset = false) (w : ReqWord) (rest : List HostMove)
    (acc : List ReqWord) (del : List RspWord) (n : Nat) :
    stepN (n + 1) ⟨acceptedBlock w, pins, ⟨.wait :: rest, acc, del⟩⟩ =
      stepN n ⟨executed w, pins, ⟨rest, acc, del⟩⟩ := by
  refine stepN_succ ?_ n
  rw [step_waitMove rfl]
  exact blockStep_accepted hr rfl

theorem stepN_deliver {pins : Pins} (hr : pins.reset = false) (hv : pins.rspReady = true) (w : ReqWord)
    (rest : List HostMove) (acc : List ReqWord) (del : List RspWord) (n : Nat) :
    stepN (n + 1) ⟨executed w, pins, ⟨.wait :: rest, acc, del⟩⟩ =
      stepN n ⟨Block.reset, pins, ⟨rest, acc, del ++ [resp w]⟩⟩ := by
  refine stepN_succ ?_ n
  rw [step_waitMove rfl]
  exact (blockStep_deliver hr (executed_ph w) hv).trans (deliver_ok (executed_rs w))

/-! ### Execute happens (R165) -/

/-- Settles O48: by induction on the script; a `wait`, or its end, lets the block execute, and a `drive` leaves the word
in place. -/
theorem executeHappens : Obligations.ExecuteHappens := by
  intro s w hs hr hno
  generalize hscript : s.env.script = moves at hno ⊢
  induction moves generalizing s with
  | nil => exact ⟨1, _, le_rfl, stepN_succ ((step_wait hscript).trans (blockStep_accepted hr hs)) 0, rfl⟩
  | cons m rest ih =>
    cases m with
    | wait =>
      have hstep := (step_waitMove hscript).trans (blockStep_accepted hr hs)
      exact ⟨1, _, Nat.le_add_left .., stepN_succ hstep 0, rfl⟩
    | drive p =>
      have hp : p.reset = false := hno p List.mem_cons_self
      have hrest : noReset rest := fun q hq => hno q (List.mem_cons_of_mem _ hq)
      have hstep := step_driveMove hscript
      rw [drive_noReset hp] at hstep
      obtain ⟨n, t, hn, ht, hx⟩ :=
        ih { s with pins := p, env := { s.env with script := rest } } hs hp rfl hrest
      exact ⟨n + 1, t, Nat.succ_le_succ hn, (stepN_succ hstep n).trans ht, hx⟩

/-! ### A session -/

/-- What the six moves of a session do to an empty block: the word is accepted and its response delivered. -/
theorem stepN_session (w : ReqWord) {s : State} (h : s.blk = Block.reset) :
    stepN 6 (s.plan (session w)) =
      some ⟨Block.reset, .quiet, ⟨s.env.script, s.env.accepted ++ [w], s.env.delivered ++ [resp w]⟩⟩ := by
  rw [State.plan, h, session]
  simp only [List.cons_append, List.nil_append]
  rw [stepN_drive rfl, stepN_accept rfl rfl, stepN_drive rfl, stepN_execute rfl, stepN_deliver rfl rfl,
    stepN_drive rfl]
  rfl

/-- The session's answer is the response delivered last. -/
theorem transact_reset (w : ReqWord) {s : State} (h : s.blk = Block.reset) :
    transact w s = some (resp w,
      ⟨Block.reset, .quiet, ⟨s.env.script, s.env.accepted ++ [w], s.env.delivered ++ [resp w]⟩⟩) := by
  rw [transact, stepN_session w h, Option.bind_some, List.getLast?_concat, Option.map_some]

/-- Settles O49: `transact_reset`, field by field. -/
theorem sessionGetsTheResponse : Obligations.SessionGetsTheResponse := fun w _ h =>
  ⟨_, transact_reset w h, rfl, rfl, rfl, rfl, rfl⟩

/-- Settles O50: the Reset event empties the block and the record, and the session after it is one of an empty block;
of the state before, nothing is used. -/
theorem abandonedOperationIsNotAnswered : Obligations.AbandonedOperationIsNotAnswered := by
  intro w s p _ _ hr
  have hstep : step (s.plan [.drive p]) = .next (resetEvent { s with pins := p }) := by
    rw [step_driveMove (s := s.plan [.drive p]) rfl, drive_reset hr]
    rfl
  exact ⟨_, hstep, rfl, rspValid_reset hr, _, transact_reset w rfl, rfl, rfl⟩

end Sys2Proof.Machine
end

section
/-! The textual notation (spec/30_encoding.md R77 to R79). -/

namespace Sys2Proof.Machine

/-! ### The word of a line -/

theorem assemble_tctr {t p : Nat} (ht : t < 2 ^ 64) (hp : p < 2 ^ 64) :
    (Line.tctr t p).assemble = some (encode (.tctr (BitVec.ofNat 64 t) (BitVec.ofNat 64 p))) := by
  have hwf : (Line.tctr t p).wellFormed = true := by
    rw [Line.wellFormed, decide_eq_true ht, decide_eq_true hp, Bool.and_self]
  rw [Line.assemble, if_pos hwf]

theorem assemble_dtrm {alg : AlgOperand} {len : Option Nat} {digest : List Byte}
    (h : (Line.dtrm alg len digest).wellFormed = true) :
    (Line.dtrm alg len digest).assemble =
      some (encode (.dtrm alg.code (BitVec.ofNat 32 (len.getD 6)) (padDigest digest))) := by
  rw [Line.assemble, if_pos h]
  rfl

theorem assemble_enc8 {c : Nat} (hc : c < 2 ^ 64) :
    (Line.enc8 c).assemble = some (encode (.tctr (BitVec.ofNat 64 c) 1)) := by
  have hwf : (Line.enc8 c).wellFormed = true := decide_eq_true hc
  rw [Line.assemble, if_pos hwf]

theorem assemble_word {bytes : List Byte} (h : bytes.length = 70) :
    (Line.word bytes).assemble = some ⟨⟨bytes⟩, h⟩ := by
  have hwf : (Line.word bytes).wellFormed = true := decide_eq_true h
  rw [Line.assemble, if_pos hwf]
  exact dif_pos h

/-! ### Filling up -/

/-- The bytes a `TCTR` word ignores are encoded as zero (R79). -/
theorem encode_tctr_ignored (t p : BitVec 64) (k : Nat) (hk : k < 70) (h : 17 ≤ k) :
    (encode (.tctr t p))[k] = 0 := by
  have hfields : ([opTctr] ++ be 8 t.toNat ++ be 8 p.toNat).length = 17 := by simp [be_length]
  rw [getElem_toList]
  simp only [encode_tctr_toList]
  rw [List.getElem_append_right (by omega), List.getElem_replicate]

theorem padDigest_toList (digest : List Byte) :
    (padDigest digest).toList = (digest ++ List.replicate 64 0).take 64 := rfl

/-- A digest is filled up with zeros (R77). -/
theorem padDigest_getElem (digest : List Byte) (a : Nat) (h : a < 64) :
    (padDigest digest)[a] = digest[a]?.getD 0 := by
  rw [getElem_toList]
  simp only [padDigest_toList, List.getElem_take, List.getElem_append]
  split
  case isTrue ha => rw [List.getElem?_eq_getElem ha, Option.getD_some]
  case isFalse ha =>
    rw [List.getElem_replicate, List.getElem?_eq_none (Nat.le_of_not_lt ha), Option.getD_none]

/-- Settles O51: a line assembles to the encoding of its operands, which decode gives back. -/
theorem assembledLineDecodes : Obligations.AssembledLineDecodes := by
  refine ⟨fun t p ht hp => ?tctr, fun alg len digest h => ?dtrm, fun bytes h => ?word⟩
  case tctr => exact ⟨_, assemble_tctr ht hp, decode_encode _, encode_tctr_ignored _ _⟩
  case dtrm => exact ⟨_, padDigest digest, assemble_dtrm h, decode_encode _, padDigest_getElem digest⟩
  case word => exact ⟨_, assemble_word h, rfl⟩

/-! ### `ENC8` -/

theorem answer_encode (i : Instr) : answer (encode i) = answerInstr i := answer_instr (decode_encode i)

/-- Settles O52: the expansion has period 1, with which the counter is the operand itself. -/
theorem enc8AnswersTheCounter : Obligations.Enc8AnswersTheCounter := by
  intro c hc
  refine ⟨(assemble_enc8 hc).trans (assemble_tctr hc (by decide)).symm, _, assemble_enc8 hc, ?_⟩
  rw [answer_encode, answerInstr_tctr_ok _ (by decide), ctr_one, enc8, BitVec.toNat_ofNat, Nat.mod_eq_of_lt hc]

end Sys2Proof.Machine
end

section
/-! Sample lines as text (spec/30_encoding.md R77, R78; spec/95_test_vectors.md). -/

namespace Sys2Proof.Machine

theorem assemble_wordNumber {l : Line} {w : ReqWord} {n : Nat} (hl : l.assemble = some w) (hw : wordNumber w = n) :
    l.assemble.map wordNumber = some n := by
  rw [hl, Option.map_some, hw]

/-- The 560-bit number of vector H0's word, its digest filled up from the 20 bytes of a line. -/
theorem wordNumber_H0_padded :
    wordNumber (encode (.dtrm 0x00 6 (padDigest (be 20 0xCC93CF18508D94934C64B65D8BA7667FB7CDE4B0)))) =
    0x020000000006CC93CF18508D94934C64B65D8BA7667FB7CDE4B00000000000000000000000000000000000000000000000000000000000000000000000000000000000000000 := by
  decide

/-- The 560-bit number of vector F3's word, its digest filled up from the 20 bytes of a line. -/
theorem wordNumber_F3_padded :
    wordNumber (encode (.dtrm 0x04 0 (padDigest (be 20 0xCC93CF18508D94934C64B65D8BA7667FB7CDE4B0)))) =
    0x020400000000CC93CF18508D94934C64B65D8BA7667FB7CDE4B00000000000000000000000000000000000000000000000000000000000000000000000000000000000000000 := by
  decide

/-- The text of vector F10's line; it is too long for `decide` outside the kernel. -/
theorem readLine_F10 :
    readLine ".word 7E0000000006CC93CF18508D94934C64B65D8BA7667FB7CDE4B00000000000000000000000000000000000000000000000000000000000000000000000000000000000000000".toList =
    some (Line.word (be 70 0x7E0000000006CC93CF18508D94934C64B65D8BA7667FB7CDE4B00000000000000000000000000000000000000000000000000000000000000000000000000000000000000000)) := by
  decide +kernel

/-- Settles O53: each text is read by evaluation; each line assembles by the equation of its form, and the number of its
word is known. -/
theorem sampleLinesAssemble : Obligations.SampleLinesAssemble :=
  ⟨by decide, assemble_wordNumber (assemble_tctr (by decide) (by decide)) wordNumber_T1,
    by decide, assemble_wordNumber (assemble_enc8 (by decide)) wordNumber_T8,
    by decide, assemble_wordNumber (assemble_dtrm (by decide)) wordNumber_H0_padded,
    by decide, assemble_wordNumber (assemble_dtrm (by decide)) wordNumber_H0_padded,
    by decide, assemble_wordNumber (assemble_dtrm (by decide)) wordNumber_F3_padded,
    readLine_F10, assemble_wordNumber (assemble_word (be_length 70 _)) (fromBe_be_of_lt (by decide)),
    by decide, by decide, by decide, by decide, by decide, by decide, by decide, by decide, by decide, by decide⟩

end Sys2Proof.Machine
end

section
/-! The host's flow through the block and the entry point (spec/50_system_composition.md R111, R113, R117, R121). -/

namespace Sys2Proof.Machine

/-! ### The flow of R111 -/

/-- The host reads back the answer of the operation it encoded. -/
theorem readResponse_encode (i : Instr) : readResponse (resp (encode i)) = some (answerInstr i) := by
  rw [hostReadsTheResponse, answer_encode]

/-- The message of step 2 is the quotient in eight bytes. -/
theorem enc8_ctr (t p : BitVec 64) : enc8 (ctr t p) = beVec 8 (t.toNat / p.toNat) := enc8_quotient t p.toNat

/-- Step 1 with a period other than 0: the flow goes on with the eight counter bytes, the block empty again. -/
theorem totpOnBlock_counter (hmac : Hmac) (key : List Byte) (a : Alg) (t : BitVec 64) {p : BitVec 64} (hp : p ≠ 0)
    (n : BitVec 32) {s : State} (hs : s.blk = Block.reset) :
    ∃ u, u.blk = Block.reset ∧
      totpOnBlock hmac key a t p n s = hashAndTruncate hmac key a n (enc8 (ctr t p)) u := by
  have hread := readResponse_encode (.tctr t p)
  rw [answerInstr_tctr_ok t hp] at hread
  exact ⟨_, rfl, totpOnBlock_hash hmac key a t p n (transact_reset _ hs) hread⟩

/-- Steps 2 and 3 with a length other than 0: the code of the digest, the block empty again. -/
theorem hashAndTruncate_code {hmac : Hmac} {key : List Byte} {a : Alg} {m : Vector Byte 8} {d : Vector Byte a.dlen}
    (hd : hmac a key m = .ok d) {n : BitVec 32} (hn : n ≠ 0) {s : State} (hs : s.blk = Block.reset) :
    ∃ u, u.blk = Block.reset ∧
      hashAndTruncate hmac key a n m s = some (.ok (digestOtp a n.toNat (digestOperand a d)), u) := by
  have hread := readResponse_encode (.dtrm a.code n (digestOperand a d))
  rw [answerInstr_dtrm_ok (ofByte_code a) hn] at hread
  exact ⟨_, rfl, hashAndTruncate_ok hd (transact_reset _ hs) hread⟩

/-- Steps 2 and 3 with length 0: the block's error, the block empty again. -/
theorem hashAndTruncate_zero {hmac : Hmac} {key : List Byte} {a : Alg} {m : Vector Byte 8} {d : Vector Byte a.dlen}
    (hd : hmac a key m = .ok d) {s : State} (hs : s.blk = Block.reset) :
    ∃ u, u.blk = Block.reset ∧
      hashAndTruncate hmac key a 0 m s = some (.error (.block .invalidOtpLength), u) :=
  ⟨_, rfl, hashAndTruncate_blockError hd (transact_reset _ hs) (readResponse_encode _)⟩

/-- Settles O54: step 1 yields the counter bytes, and the keyed hash decides the rest as in `totpNumeric`. -/
theorem flowComputesTotp : Obligations.FlowComputesTotp := by
  intro hmac key a t p n s hp hn hs
  obtain ⟨u, hu, hflow⟩ := totpOnBlock_counter hmac key a t hp n hs
  rw [hflow, totpNumeric]
  cases hd : hmac a key (enc8 (ctr t p)) with
  | error e => exact ⟨u, hashAndTruncate_hmacError n u hd, hu⟩
  | ok d =>
    obtain ⟨v, hv, hcode⟩ := hashAndTruncate_code hd hn hu
    exact ⟨v, hcode, hv⟩

/-- Settles O55: step 1 is answered with the error. -/
theorem flowStopsOnInvalidPeriod : Obligations.FlowStopsOnInvalidPeriod := fun hmac key a t n _ hs =>
  ⟨_, totpOnBlock_error hmac key a t 0 n (transact_reset _ hs) (readResponse_encode (.tctr t 0)), rfl⟩

/-- Settles O59: step 1 yields the counter bytes; then the keyed hash or the block answers with an error. -/
theorem flowStopsOnInvalidOtpLength : Obligations.FlowStopsOnInvalidOtpLength := by
  intro hmac key a t p s hp hs
  obtain ⟨u, hu, hflow⟩ := totpOnBlock_counter hmac key a t hp 0 hs
  rw [hflow, enc8_ctr]
  refine ⟨fun d hd => ?length, fun e he => ?hash⟩
  case length =>
    obtain ⟨v, hv, hstop⟩ := hashAndTruncate_zero hd hu
    exact ⟨v, hstop, hv⟩
  case hash => exact ⟨u, hashAndTruncate_hmacError 0 u he, hu⟩

/-! ### The entry point's three checks (R117) -/

section checks

variable (dec : SecretDecoder) (hmac : Hmac) {secret : List Char} (a : Alg) {period : Int} (now : BitVec 64) {len : Int}

theorem generateTotp_badLength (h : len < 1) :
    generateTotp dec hmac secret a period now len = .error (.block .invalidOtpLength) := if_pos h

theorem generateTotp_badSecret (h1 : 1 ≤ len) (h2 : secret = []) :
    generateTotp dec hmac secret a period now len = .error .invalidSecret := by
  rw [generateTotp, if_neg (Int.not_lt.mpr h1), if_pos h2]

theorem generateTotp_badPeriod (h1 : 1 ≤ len) (h2 : secret ≠ []) (h3 : period < 1) :
    generateTotp dec hmac secret a period now len = .error (.block .invalidPeriod) := by
  rw [generateTotp, if_neg (Int.not_lt.mpr h1), if_neg h2, if_pos h3]

end checks

/-! ### Its answer -/

/-- `totpNumeric` is the code of the digest of the quotient's eight bytes. -/
theorem totpNumeric_ok {hmac : Hmac} {key : List Byte} {a : Alg} {t p : BitVec 64} {d : Vector Byte a.dlen}
    (h : hmac a key (beVec 8 (t.toNat / p.toNat)) = .ok d) (n : Nat) :
    totpNumeric hmac key a t p n = .ok (digestOtp a n (digestOperand a d)) := by
  rw [totpNumeric, enc8_ctr, h]

/-- Settles O57: the checks one by one; a valid call is decided by the decoder and the keyed hash, and its answer is the
formatted code of the digest. -/
theorem entryPointValidates : Obligations.EntryPointValidates := by
  intro dec hmac secret a period now len
  refine ⟨fun h _ _ => generateTotp_badLength dec hmac a now h,
    fun h1 h2 _ => generateTotp_badSecret dec hmac a now h1 h2, generateTotp_badPeriod dec hmac a now,
    generateTotp_noSecret hmac a now,
    fun key e h1 h2 h3 hk he => ?hashError, fun key d h1 h2 h3 hk hd => ?answer⟩
  case hashError => rw [generateTotp_key hmac a now h1 h2 h3 hk, he]
  case answer =>
    have hlen : 1 ≤ len.toNat := by omega
    obtain ⟨hwidth, hdigits, hvalue⟩ :=
      formattedCodeIsFixedWidth _ _ hlen (digestOtp_lt a len.toNat (digestOperand a d))
    refine ⟨_, digestOtp a len.toNat (digestOperand a d), ?call, ?width, hdigits, hvalue, digestOtp_toNat ..,
      fun p hp => ?totp⟩
    case call => rw [generateTotp_key hmac a now h1 h2 h3 hk, hd]
    case width => rw [hwidth, Int.toNat_of_nonneg (by omega)]
    case totp => exact totpNumeric_ok (hp ▸ hd) len.toNat

/-- Settles O58: the entry point reads the time through the quotient only. -/
theorem sameWindowSameCode : Obligations.SameWindowSameCode := by
  intro dec hmac secret a period t₁ t₂ len h
  rw [generateTotp, generateTotp, h]

end Sys2Proof.Machine
end
